-- ==== Sys2Proof/Word.lean ====
section
/-! DEFINITION. The word types of the block: a 32-bit data, instruction or address word, and a 3-bit register index. -/

namespace Sys2Proof

/-- A 32-bit word: a register, a memory word, an instruction, an address or the pc
(00_scope.md R8, R10). `+` on words is modulo 2^32, `toInt` is the spec's `signed` and `toNat` its `unsigned`. -/
abbrev Word := BitVec 32

/-- A register index, 3 bits (10_state.md R30, 30_encoding.md R102): always well formed. -/
abbrev RegIdx := BitVec 3

end Sys2Proof
end

