-- ==== Sys2Proof/Config.lean ====
section
/-! DEFINITION. The implementation parameters of 00_scope.md R8 and the one constant of the encoding the block itself writes. -/

namespace Sys2Proof

/-- The named parameters a model takes as an argument (00_scope.md R8). -/
structure Config where
  /-- `IMEM_WORDS`, the size of instruction memory in words (D7). -/
  imemWords : Nat
  /-- `DMEM_WORDS`, the size of data memory in words (D7). -/
  dmemWords : Nat
  /-- `CYCLE_CAP`, the optional cap of rule R193 (D21). -/
  cycleCap : Option Nat
  /-- `HALT_EXTRA_CYCLE`, the variant of rule R191 (D14). -/
  haltExtraCycle : Bool
  deriving DecidableEq, Repr

/-- The spec's default for every parameter (00_scope.md R8). -/
def Config.default : Config :=
  { imemWords := 65536, dmemWords := 65536, cycleCap := none, haltExtraCycle := false }

/-- The bounds the spec puts on the memory sizes: `1 <= size <= 2^31` (00_scope.md R8). -/
def Config.wf (c : Config) : Bool :=
  decide (1 ≤ c.imemWords ∧ c.imemWords ≤ 2 ^ 31 ∧ 1 ≤ c.dmemWords ∧ c.dmemWords ≤ 2 ^ 31)

/-- `NOOP_WORD`: the word the block writes into bubbles (30_encoding.md R105, 00_scope.md R8). -/
def noopWord : Word := 0x01C00000#32

end Sys2Proof
end

