-- ==== Sys2Proof/Syntax.lean ====
section
/-! DEFINITION. The instructions: one constructor per row of spec/opcode_table.json, the nine-valued opcode type of the latches, and the assembly lines of 30_encoding.md R110. -/

namespace Sys2Proof

/-- The type `Op` of the latches' opcode fields (10_state.md R43): the eight opcodes of the
enumeration (00_scope.md R3) and `INERT` for a word outside it. -/
inductive Op where
  | add | nor | load | store | beq | jalr | halt | noop | inert
  deriving DecidableEq, Repr

/-- One instruction word, read by its fields (30_encoding.md R100, R108). The bits an opcode ignores
(R107) are kept as the argument `ignored`, so that every 32-bit word is exactly one instruction. -/
inductive Instr where
  /-- ADD, rule R200: sources `a` and `b`, destination `d = C[2:0]`; `ignored = C[15:3]`. -/
  | add (a b d : RegIdx) (ignored : BitVec 13)
  /-- NOR, rule R201: fields as for ADD. -/
  | nor (a b d : RegIdx) (ignored : BitVec 13)
  /-- LOAD (`lw`), rule R221: base `a`, destination `b`, offset field `c`. -/
  | lw (a b : RegIdx) (c : BitVec 16)
  /-- STORE (`sw`), rule R222: base `a`, data source `b`, offset field `c`. -/
  | sw (a b : RegIdx) (c : BitVec 16)
  /-- BEQ, rule R240: compared registers `a` and `b`, displacement field `c`. -/
  | beq (a b : RegIdx) (c : BitVec 16)
  /-- JALR, rule R246, unimplemented: fields A and B are decoded and unused. -/
  | jalr (a b : RegIdx) (ignored : BitVec 16)
  /-- HALT, rule R260: fields A, B and C are ignored. -/
  | halt (ignored : BitVec 22)
  /-- NOOP, rule R263: fields A, B and C are ignored. -/
  | noop (ignored : BitVec 22)
  /-- INERT, rules R106 and R266: a word whose bits 31:25, here `ext`, are not all zero. -/
  | inert (ext : BitVec 7) (ignored : BitVec 25)
  deriving DecidableEq, Repr

/-- A line of the spec's assembly notation (30_encoding.md R110). Offsets are integers here, as written;
`AsmLine.wf` holds their range. -/
inductive AsmLine where
  | add (a b d : RegIdx)
  | nor (a b d : RegIdx)
  | lw (a b : RegIdx) (off : Int)
  | sw (a b : RegIdx) (off : Int)
  | beq (a b : RegIdx) (off : Int)
  | jalr (a b : RegIdx)
  | halt
  | noop
  | fill (v : Int)
  deriving DecidableEq, Repr

end Sys2Proof
end

