-- ==== Sys2Proof/WellFormed.lean ====
section
/-! DEFINITION. Which terms of the syntax stand for a word: the decidable checks of 30_encoding.md R106 and R110. -/

namespace Sys2Proof

/-- An instruction is well formed when it is the reading of some word. The only check the encoding
makes is that an INERT word has a nonzero bit in 31:25 (30_encoding.md R106); every other field is
well formed by its width (R102). -/
def Instr.wf : Instr → Bool
  | .add _ _ _ _ => true
  | .nor _ _ _ _ => true
  | .lw _ _ _ => true
  | .sw _ _ _ => true
  | .beq _ _ _ => true
  | .jalr _ _ _ => true
  | .halt _ => true
  | .noop _ => true
  | .inert ext _ => ext != 0#7

/-- The range of an assembly offset: `[-32768, 32767]` (30_encoding.md R110). -/
def offsetInRange (off : Int) : Bool := decide (-32768 ≤ off ∧ off ≤ 32767)

/-- The range of a `.fill` value: a signed 32-bit value (30_encoding.md R110). -/
def fillInRange (v : Int) : Bool := decide (-2147483648 ≤ v ∧ v ≤ 2147483647)

/-- An assembly line maps to a word when its integer operand fits its field (30_encoding.md R110). -/
def AsmLine.wf : AsmLine → Bool
  | .add _ _ _ => true
  | .nor _ _ _ => true
  | .lw _ _ off => offsetInRange off
  | .sw _ _ off => offsetInRange off
  | .beq _ _ off => offsetInRange off
  | .jalr _ _ => true
  | .halt => true
  | .noop => true
  | .fill v => fillInRange v

end Sys2Proof
end

