-- ==== Sys2Proof/Decode.lean ====
section
/-! DEFINITION. The decoder of 30_encoding.md R101, total on every word, the encoder written from the same format table (R100), and the assembler's map from a line to its word (R110). -/

namespace Sys2Proof

/-- Field X, bits 31:25, the opcode extension (30_encoding.md R100). -/
def fieldX (w : Word) : BitVec 7 := w.extractLsb' 25 7

/-- The opcode field, bits 24:22 (30_encoding.md R100, 90_conflicts.md C1). -/
def fieldOp (w : Word) : BitVec 3 := w.extractLsb' 22 3

/-- Field A, bits 21:19 (30_encoding.md R100). -/
def fieldA (w : Word) : RegIdx := w.extractLsb' 19 3

/-- Field B, bits 18:16 (30_encoding.md R100). -/
def fieldB (w : Word) : RegIdx := w.extractLsb' 16 3

/-- Field C, bits 15:0 (30_encoding.md R100). -/
def fieldC (w : Word) : BitVec 16 := w.extractLsb' 0 16

/-- `sext_16`: the two's-complement reading of field C as 32 bits (00_scope.md R10, 30_encoding.md R103). -/
def sext16 (c : BitVec 16) : Word := c.signExtend 32

/-- The table OPCODE of 30_encoding.md R104: the opcode of each value of bits 24:22. -/
def opcodeTable : Vector Op 8 := #v[.add, .nor, .load, .store, .beq, .jalr, .halt, .noop]

/-- The opcode of a word: the table's entry if bits 31:25 are zero, INERT if not (30_encoding.md R101, R106). -/
def opcodeOf (w : Word) : Op :=
  if fieldX w = 0#7 then opcodeTable[(fieldOp w).toNat]'(fieldOp w).isLt else .inert

/-- The 4-bit hardware form of an opcode field: the opcode value 0 to 7, and 8 for INERT (10_state.md R43). -/
def Op.code : Op → BitVec 4
  | .add => 0#4
  | .nor => 1#4
  | .load => 2#4
  | .store => 3#4
  | .beq => 4#4
  | .jalr => 5#4
  | .halt => 6#4
  | .noop => 7#4
  | .inert => 8#4

/-- What the decoder returns: `(op, A, B, C, off)` (30_encoding.md R101). -/
structure Fields where
  op : Op
  a : RegIdx
  b : RegIdx
  c : BitVec 16
  off : Word
  deriving DecidableEq, Repr

/-- `decode` as the stages use it: a pure, total function of one word (30_encoding.md R101). -/
def decodeFields (w : Word) : Fields :=
  { op := opcodeOf w, a := fieldA w, b := fieldB w, c := fieldC w, off := sext16 (fieldC w) }

/-- The instruction a word stands for. It never fails: every word is one of the nine rows
(30_encoding.md R101, R107, R108). -/
def decode (w : Word) : Instr :=
  match opcodeOf w with
  | .add => .add (fieldA w) (fieldB w) (w.extractLsb' 0 3) (w.extractLsb' 3 13)
  | .nor => .nor (fieldA w) (fieldB w) (w.extractLsb' 0 3) (w.extractLsb' 3 13)
  | .load => .lw (fieldA w) (fieldB w) (fieldC w)
  | .store => .sw (fieldA w) (fieldB w) (fieldC w)
  | .beq => .beq (fieldA w) (fieldB w) (fieldC w)
  | .jalr => .jalr (fieldA w) (fieldB w) (fieldC w)
  | .halt => .halt (w.extractLsb' 0 22)
  | .noop => .noop (w.extractLsb' 0 22)
  | .inert => .inert (fieldX w) (w.extractLsb' 0 25)

/-- The word with bits 31:25 zero and the fields of the one format (30_encoding.md R100). -/
def packFields (op a b : BitVec 3) (c : BitVec 16) : Word := 0#7 ++ op ++ (a ++ b ++ c)

/-- The word of an instruction (30_encoding.md R100, R104, R108). -/
def encode : Instr → Word
  | .add a b d x => packFields 0#3 a b (x ++ d)
  | .nor a b d x => packFields 1#3 a b (x ++ d)
  | .lw a b c => packFields 2#3 a b c
  | .sw a b c => packFields 3#3 a b c
  | .beq a b c => packFields 4#3 a b c
  | .jalr a b x => packFields 5#3 a b x
  | .halt x => 0#7 ++ 6#3 ++ x
  | .noop x => 0#7 ++ 7#3 ++ x
  | .inert ext x => ext ++ x

/-- The opcode of an instruction, the value its words carry in the latches (10_state.md R43). -/
def Instr.op : Instr → Op
  | .add _ _ _ _ => .add
  | .nor _ _ _ _ => .nor
  | .lw _ _ _ => .load
  | .sw _ _ _ => .store
  | .beq _ _ _ => .beq
  | .jalr _ _ _ => .jalr
  | .halt _ => .halt
  | .noop _ => .noop
  | .inert _ _ => .inert

/-- The word of an assembly line (30_encoding.md R110): offsets and `.fill` values in two's complement,
ignored fields zero. -/
def AsmLine.word : AsmLine → Word
  | .add a b d => encode (.add a b d 0#13)
  | .nor a b d => encode (.nor a b d 0#13)
  | .lw a b off => encode (.lw a b (BitVec.ofInt 16 off))
  | .sw a b off => encode (.sw a b (BitVec.ofInt 16 off))
  | .beq a b off => encode (.beq a b (BitVec.ofInt 16 off))
  | .jalr a b => encode (.jalr a b 0#16)
  | .halt => encode (.halt 0#22)
  | .noop => encode (.noop 0#22)
  | .fill v => BitVec.ofInt 32 v

/-- The value an assembler computes for a label given to `lw` or `sw`: the label's index (30_encoding.md R110). -/
def labelForData (label : Nat) : Int := label

/-- The value an assembler computes for a label given to a `beq` at index `own`: the label's index minus
(`own` + 1) (30_encoding.md R110). -/
def labelForBranch (own label : Nat) : Int := (label : Int) - ((own : Int) + 1)

/-- The instruction the decoder reads from the instruction word whose `nbits` table bits are `w`, the bits
above them zero. Instructions are one 32-bit word (30_encoding.md R109), so a longer row is no instruction. -/
def decodeTableWord (nbits w : Nat) : Option Instr :=
  if nbits ≤ 32 then some (decode (BitVec.ofNat 32 (w % 2 ^ nbits))) else none

end Sys2Proof
end

