-- ==== Sys2Proof/Machine/State.lean ====
section
/-! DEFINITION. The state vector of 10_state.md R57 as plain data, the reasons a cycle or a load can stop, the named single-field updates, and the machine right after reset. -/

namespace Sys2Proof.Machine

/-- The two hard faults (60_exceptions.md R300, R301, R304). `cycle` answers with one of them (40_pipeline.md
R130, "Fault f"); `step` and `exec` then record it in `status` (R303), so that neither ever ends in an
outcome `fault` of its own. Both are safe: the spec itself ends the run there. -/
inductive Fault where
  /-- Code 1, raised by the Fetch stage when the pc is outside instruction memory (R300); `addr` is the pc. Safe. -/
  | instructionFetchOutOfRange (addr : Word)
  /-- Code 2, raised by the Memory stage (and by the architectural `lw` and `sw`) when the effective
  address is outside data memory (R301); `addr` is the effective address. Safe. -/
  | dataAccessOutOfRange (addr : Word)
  deriving DecidableEq, Repr

/-- Why the model gives no next state. -/
inductive Refusal where
  /-- An instruction without a meaning; raised by a refused arm of `exec` only (there is none). Safe. -/
  | notModelled (mnemonic : String)
  /-- An image of `words` words that does not fit a memory; raised at load, no run starts
  (70_reset_and_hazards.md R342). Safe. -/
  | imageTooLong (words : Nat)
  deriving DecidableEq, Repr

/-- The run-status register (10_state.md R54). -/
inductive Status where
  | running
  | halted
  /-- The fault record `Faulted(kind, addr, cycle)`: kind and address are the fault's (60_exceptions.md R303). -/
  | faulted (fault : Fault) (cycle : Nat)
  | capReached
  deriving DecidableEq, Repr

/-- A destination field: a register index, or `none` for the sentinel NONE (00_scope.md R13, 10_state.md R43). -/
abbrev Dest := Option RegIdx

/-- A word memory: the words that differ from 0, each with its index, indices strictly rising
(10_state.md R39, R40; an unlisted word is 0, R41). The cell is the spec's unit, one 32-bit word (20_memory.md R80, R81). -/
abbrev Memory := List (Nat × Word)

/-- Latch IFID (10_state.md R45). -/
structure IfId where
  instr : Word
  pcPlus1 : Word
  deriving DecidableEq, Repr

/-- Latch IDEX (10_state.md R46). -/
structure IdEx where
  instr : Word
  pcPlus1 : Word
  readRegA : Word
  readRegB : Word
  offset : Word
  opcode : Op
  dest : Dest
  deriving DecidableEq, Repr

/-- Latch EXMEM (10_state.md R47); `eq` is the block's one flag (R53). -/
structure ExMem where
  instr : Word
  branchTarget : Word
  eq : Bool
  aluResult : Word
  readRegB : Word
  opcode : Op
  dest : Dest
  deriving DecidableEq, Repr

/-- Latch MEMWB (10_state.md R48). -/
structure MemWb where
  instr : Word
  writeData : Word
  opcode : Op
  dest : Dest
  deriving DecidableEq, Repr

/-- Latch WBRET, which has no opcode field (10_state.md R49, 90_conflicts.md C5). -/
structure WbRet where
  instr : Word
  writeData : Word
  dest : Dest
  deriving DecidableEq, Repr

/-- IFID_BUBBLE (10_state.md R50). -/
def IfId.bubble : IfId := { instr := noopWord, pcPlus1 := 0#32 }

/-- IDEX_BUBBLE (10_state.md R50). -/
def IdEx.bubble : IdEx :=
  { instr := noopWord, pcPlus1 := 0#32, readRegA := 0#32, readRegB := 0#32, offset := 0#32,
    opcode := .noop, dest := none }

/-- EXMEM_BUBBLE (10_state.md R50). -/
def ExMem.bubble : ExMem :=
  { instr := noopWord, branchTarget := 0#32, eq := false, aluResult := 0#32, readRegB := 0#32,
    opcode := .noop, dest := none }

/-- MEMWB_BUBBLE (10_state.md R50). -/
def MemWb.bubble : MemWb := { instr := noopWord, writeData := 0#32, opcode := .noop, dest := none }

/-- WBRET_BUBBLE (10_state.md R50). -/
def WbRet.bubble : WbRet := { instr := noopWord, writeData := 0#32, dest := none }

/-- The full state vector (10_state.md R57). -/
@[ext]
structure State where
  /-- The program counter, a word index (R35). -/
  pc : Word
  /-- The cycle counter, unbounded (R42). -/
  cycles : Nat
  /-- The register file r0 to r7 (R30). -/
  reg : Vector Word 8
  /-- Instruction memory (R39). -/
  imem : Memory
  /-- Data memory (R40). -/
  dmem : Memory
  /-- Fetch/Decode latch (R45). -/
  ifid : IfId
  /-- Decode/Execute latch (R46). -/
  idex : IdEx
  /-- Execute/Memory latch (R47). -/
  exmem : ExMem
  /-- Memory/Writeback latch (R48). -/
  memwb : MemWb
  /-- Writeback/Retire latch (R49). -/
  wbret : WbRet
  /-- The run status (R54). -/
  status : Status
  deriving DecidableEq, Repr

/-- The state after reset with the empty image: every field at the value of 10_state.md R67 and
70_reset_and_hazards.md R340, both memories all zeros (R41 with L = 0). -/
def State.reset : State :=
  { pc := 0#32
    cycles := 0
    reg := #v[0#32, 0#32, 0#32, 0#32, 0#32, 0#32, 0#32, 0#32]
    imem := []
    dmem := []
    ifid := IfId.bubble
    idex := IdEx.bubble
    exmem := ExMem.bubble
    memwb := MemWb.bubble
    wbret := WbRet.bubble
    status := .running }

def State.setPc (s : State) (v : Word) : State := { s with pc := v }
def State.setCycles (s : State) (v : Nat) : State := { s with cycles := v }
def State.setReg (s : State) (v : Vector Word 8) : State := { s with reg := v }
def State.setImem (s : State) (v : Memory) : State := { s with imem := v }
def State.setDmem (s : State) (v : Memory) : State := { s with dmem := v }
def State.setIfid (s : State) (v : IfId) : State := { s with ifid := v }
def State.setIdex (s : State) (v : IdEx) : State := { s with idex := v }
def State.setExmem (s : State) (v : ExMem) : State := { s with exmem := v }
def State.setMemwb (s : State) (v : MemWb) : State := { s with memwb := v }
def State.setWbret (s : State) (v : WbRet) : State := { s with wbret := v }
def State.setStatus (s : State) (v : Status) : State := { s with status := v }

/-- The rising clock edge a host can give the block: with `rst` high and an image on the image ports, or
with `rst` low (10_state.md R60 to R62). -/
inductive Edge where
  | rst (img : List Word)
  | clk
  deriving DecidableEq, Repr

/-- The output ports (10_state.md R60): the state vector (R64), the status with its code (60_exceptions.md
R305), and the cycle counter (60_exceptions.md R311). -/
structure Outputs where
  stateOut : State
  status : Status
  statusCode : Nat
  cycles : Nat
  deriving DecidableEq, Repr

/-- The 4-bit hardware form of a destination field: one valid bit and a 3-bit index (10_state.md R43). -/
structure DestWires where
  valid : BitVec 1
  index : RegIdx
  deriving DecidableEq, Repr

/-- The opcode and destination fields of the latches in their hardware form (10_state.md R43): IFID has
neither, and WBRET has no opcode (R45 to R49). -/
structure ControlWires where
  idexOpcode : BitVec 4
  exmemOpcode : BitVec 4
  memwbOpcode : BitVec 4
  idexDest : DestWires
  exmemDest : DestWires
  memwbDest : DestWires
  wbretDest : DestWires
  deriving DecidableEq, Repr

/-- The final counters, presented when the run has ended (10_state.md R65). -/
structure FinalReport where
  cycles : Nat
  reg : Vector Word 8
  dmem : Memory
  deriving DecidableEq, Repr

end Sys2Proof.Machine
end

