-- ==== Sys2Proof/Machine/Ops.lean ====
section
/-! DEFINITION. The named operations over memories, registers and status: word access, range check, image load, taking a fault, ending a run, and the output ports. -/

namespace Sys2Proof.Machine

/-! Word memories -/

/-- The word at index `a`; an index nothing lists reads 0, the spec's content beyond the image (10_state.md R41). -/
def memRead : Memory → Nat → Word
  | [], _ => 0#32
  | (k, v) :: m, a => if a = k then v else memRead m a

/-- Writes the whole word at index `a` (20_memory.md R84). The form stays canonical: indices rise, and
writing 0, what an unlisted index reads, removes the entry. -/
def memWrite : Memory → Nat → Word → Memory
  | [], a, v => if v = 0#32 then [] else [(a, v)]
  | (k, w) :: m, a, v =>
    if a < k then (if v = 0#32 then (k, w) :: m else (a, v) :: (k, w) :: m)
    else if a = k then (if v = 0#32 then m else (a, v) :: m)
    else (k, w) :: memWrite m a v

/-- The entries of an image whose first word has index `n` (10_state.md R41). -/
def memOfWordsFrom (n : Nat) : List Word → Memory
  | [] => []
  | w :: ws => if w = 0#32 then memOfWordsFrom (n + 1) ws else (n, w) :: memOfWordsFrom (n + 1) ws

/-- The contents a memory has after the image is loaded: `img[i]` at index `i`, 0 beyond (10_state.md R41). -/
def memOfImage (img : List Word) : Memory := memOfWordsFrom 0 img

/-- Every index listed is at least `lo`, indices strictly rise and no entry is 0. -/
def memCanonicalFrom (lo : Nat) : Memory → Bool
  | [] => true
  | (k, v) :: m => decide (lo ≤ k) && decide (v ≠ 0#32) && memCanonicalFrom (k + 1) m

/-- The canonical form of a memory: indices strictly rising, no entry equal to what an unlisted index reads as. -/
def Memory.wf (m : Memory) : Bool := memCanonicalFrom 0 m

/-- Every listed index lies inside a space of `size` words (20_memory.md R80). -/
def Memory.within (size : Nat) (m : Memory) : Bool := m.all fun e => decide (e.1 < size)

/-- The range check of 20_memory.md R86: `0 <= signed(a) < size`. It neither wraps nor clamps (D10). -/
def inRange (size : Nat) (a : Word) : Bool := decide (0 ≤ a.toInt ∧ a.toInt < (size : Int))

/-- `IMemRead(a)` (00_scope.md R11). -/
def State.imemWord (s : State) (a : Word) : Word := memRead s.imem a.toNat

/-- `MemRead(a, 1)`: one whole word of data memory (00_scope.md R11, 20_memory.md R84). -/
def State.dmemWord (s : State) (a : Word) : Word := memRead s.dmem a.toNat

/-- `MemWrite(a, 1, v)`: one whole word of data memory; instruction memory is never written
(00_scope.md R11, 20_memory.md R84, R91). -/
def State.storeWord (s : State) (a v : Word) : State := s.setDmem (memWrite s.dmem a.toNat v)

/-! General registers -/

/-- `x[r]`: register `r` of the state; r0 is like every other (10_state.md R30, R31). -/
def State.readReg (s : State) (r : RegIdx) : Word := s.reg[r.toNat]'r.isLt

/-- `x[r] <- v`; r0 is like every other (10_state.md R30, R31). -/
def State.writeReg (s : State) (r : RegIdx) (v : Word) : State := s.setReg (s.reg.set r.toNat v r.isLt)

/-- A write to a destination field: NONE names no register (00_scope.md R13; DEDUCED: log entry 5). -/
def State.writeDest (s : State) (d : Dest) (v : Word) : State :=
  match d with
  | some r => s.writeReg r v
  | none => s

/-! The hardware form of the latches' control fields -/

/-- A destination field on its wires: NONE is valid = 0 (10_state.md R43). Its index bits are 0 then, which
R43 leaves open (DESIGN CHOICE: log entry 13). -/
def destWires (d : Dest) : DestWires :=
  match d with
  | some r => { valid := 1#1, index := r }
  | none => { valid := 0#1, index := 0#3 }

/-- The destination field that wires stand for: with valid = 0 it is NONE, whatever the index bits
(10_state.md R43). -/
def destOfWires (b : DestWires) : Dest := if b.valid = 1#1 then some b.index else none

/-- The latches' opcode and destination fields on their wires (10_state.md R43). -/
def controlWires (s : State) : ControlWires :=
  { idexOpcode := s.idex.opcode.code
    exmemOpcode := s.exmem.opcode.code
    memwbOpcode := s.memwb.opcode.code
    idexDest := destWires s.idex.dest
    exmemDest := destWires s.exmem.dest
    memwbDest := destWires s.memwb.dest
    wbretDest := destWires s.wbret.dest }

/-! Ending a run -/

/-- Taking a fault, the one shared operation (60_exceptions.md R303, R308): the record goes to `status`
with the number of the cycle that faulted, and every other field stays as it was at the start of the
cycle. Nothing is saved, no vector is read, and only reset leaves the state (10_state.md R66), so there
is no return from it. -/
def takeFault (f : Fault) (s : State) : State := s.setStatus (.faulted f (s.cycles + 1))

/-- `status <- Halted` (40_pipeline.md R190). -/
def haltRun (s : State) : State := s.setStatus .halted

/-- `status <- CapReached` (40_pipeline.md R193). -/
def capRun (s : State) : State := s.setStatus .capReached

/-- The code of a status (60_exceptions.md R305). -/
def Status.code : Status → Nat
  | .running => 0
  | .faulted (.instructionFetchOutOfRange _) _ => 1
  | .faulted (.dataAccessOutOfRange _) _ => 2
  | .halted => 3
  | .capReached => 4

/-! Reset and the output ports -/

/-- Loading an image at reset: refused if it does not fit (70_reset_and_hazards.md R342); else the reset
state with the image in both memories, the mirroring of 10_state.md R41 (R340). It reads no earlier
state: an edge with `rst = 1` puts the block here whatever it held (10_state.md R62). -/
def loadImage (c : Config) (img : List Word) : Host.Outcome State Fault Refusal :=
  if img.length ≤ c.imemWords ∧ img.length ≤ c.dmemWords then
    .next ((State.reset.setImem (memOfImage img)).setDmem (memOfImage img))
  else .refused (.imageTooLong img.length)

/-- The output ports (10_state.md R60, R64). -/
def outputs (s : State) : Outputs :=
  { stateOut := s, status := s.status, statusCode := s.status.code, cycles := s.cycles }

/-- The final counters, presented when `status` has left Running (10_state.md R65). -/
def finalReport (s : State) : Option FinalReport :=
  if s.status = .running then none else some { cycles := s.cycles, reg := s.reg, dmem := s.dmem }

/-- The state with `w` at the pc's index of instruction memory: the word the next Fetch reads
(40_pipeline.md R140). It stands for the host's load of that word (10_state.md R41). -/
def placeAtPc (s : State) (w : Word) : State := s.setImem (memWrite s.imem s.pc.toNat w)

end Sys2Proof.Machine
end

