-- ==== Sys2Proof/Machine/Operands.lean ====
section
/-! DEFINITION. The operand forms: opcode classes, source and destination fields, the values each opcode computes from its operands, and the forwarding network that resolves an operand in Execute. -/

namespace Sys2Proof.Machine

/-- `WRITERS = {ADD, NOR, LOAD}`, the opcodes that write a register (00_scope.md R14). -/
def isWriter : Op → Bool
  | .add => true
  | .nor => true
  | .load => true
  | .store => false
  | .beq => false
  | .jalr => false
  | .halt => false
  | .noop => false
  | .inert => false

/-- `USERS = {ADD, NOR, BEQ, STORE, LOAD}`, the opcodes the hazard unit treats as consumers (00_scope.md R14). -/
def isUser : Op → Bool
  | .add => true
  | .nor => true
  | .load => true
  | .store => true
  | .beq => true
  | .jalr => false
  | .halt => false
  | .noop => false
  | .inert => false

/-- `destOf(op, A, B, C)` (40_pipeline.md R146). -/
def destOf (f : Fields) : Dest :=
  match f.op with
  | .add => some (f.c.extractLsb' 0 3)
  | .nor => some (f.c.extractLsb' 0 3)
  | .load => some f.b
  | .store => none
  | .beq => none
  | .jalr => none
  | .halt => none
  | .noop => none
  | .inert => none

/-- The comparison `d == r` of a destination field with a register index; NONE equals no index
(00_scope.md R13). -/
def destIs (d : Dest) (r : RegIdx) : Bool := decide (d = some r)

/-- The sum of ADD, modulo 2^32 (41_alu.md R200). -/
def addResult (a b : Word) : Word := a + b

/-- The bitwise NOR (41_alu.md R201). -/
def norResult (a b : Word) : Word := ~~~(a ||| b)

/-- The effective address of LOAD and STORE: base plus sign-extended offset, modulo 2^32 (42_loadstore.md R220). -/
def effectiveAddress (base off : Word) : Word := base + off

/-- The branch target: `pc+1` plus the sign-extended displacement, modulo 2^32 (40_pipeline.md R167, 43_control.md R240). -/
def branchTargetOf (pcPlus1 off : Word) : Word := pcPlus1 + off

/-- The ALU result of each opcode, from the two resolved operands and the offset (40_pipeline.md R165). The
0 of the opcodes that use no ALU is the spec's decision D16. -/
def aluResultOf (op : Op) (a b off : Word) : Word :=
  match op with
  | .add => addResult a b
  | .nor => norResult a b
  | .load => effectiveAddress a off
  | .store => effectiveAddress a off
  | .beq => 0#32
  | .jalr => 0#32
  | .halt => 0#32
  | .noop => 0#32
  | .inert => 0#32

/-- The forwarding unit: the value of register `r` for the instruction in IDEX, where `v` is the value read
at Decode. The nearest producer wins: EXMEM's ALU result, MEMWB's write-back value, WBRET's value (its
opcode decoded from its word), else `v` (40_pipeline.md R160 to R163). -/
def fwd (s : State) (r : RegIdx) (v : Word) : Word :=
  if destIs s.exmem.dest r && isWriter s.exmem.opcode then s.exmem.aluResult
  else if destIs s.memwb.dest r && isWriter s.memwb.opcode then s.memwb.writeData
  else if destIs s.wbret.dest r && isWriter (opcodeOf s.wbret.instr) then s.wbret.writeData
  else v

/-- The first operand of the instruction in IDEX (40_pipeline.md R164). -/
def operandA (s : State) : Word := fwd s (decodeFields s.idex.instr).a s.idex.readRegA

/-- The second operand of the instruction in IDEX (40_pipeline.md R164). -/
def operandB (s : State) : Word := fwd s (decodeFields s.idex.instr).b s.idex.readRegB

end Sys2Proof.Machine
end

