-- ==== Sys2Proof/Machine/Alu.lean ====
section
/-! DEFINITION. The architectural effect of the ALU instructions ADD and NOR (41_alu.md), and the advance of the pc that every instruction shares. -/

namespace Sys2Proof.Machine

/-- The pc moves to the next word index (43_control.md R240, R246; modulo 2^32, 10_state.md R37). -/
def advance (s : State) : State := s.setPc (s.pc + 1#32)

/-- ADD: `x[D] <- x[A] + x[B]`, sources read before the write (41_alu.md R200). -/
def execAdd (a b d : RegIdx) (s : State) : Host.Outcome State Fault Refusal :=
  .next (advance (s.writeReg d (addResult (s.readReg a) (s.readReg b))))

/-- NOR: `x[D] <- ~(x[A] | x[B])` (41_alu.md R201). -/
def execNor (a b d : RegIdx) (s : State) : Host.Outcome State Fault Refusal :=
  .next (advance (s.writeReg d (norResult (s.readReg a) (s.readReg b))))

end Sys2Proof.Machine
end

