-- ==== Sys2Proof/Machine/Flags.lean ====
section
/-! DEFINITION. The block's one flag, EXMEM.eq, and the one place that reads it. -/

namespace Sys2Proof.Machine

/-- The equality flag: all 32 bits of the two operands agree (40_pipeline.md R166, 43_control.md R240). -/
def eqFlag (a b : Word) : Bool := decide (a = b)

/-- A BEQ with its flag set is in the Memory stage: the point of control resolution (40_pipeline.md R171).
Nothing else reads the flag (10_state.md R53). -/
def branchTaken (s : State) : Bool := decide (s.exmem.opcode = .beq) && s.exmem.eq

end Sys2Proof.Machine
end

