-- ==== Sys2Proof/Machine/Control.lean ====
section
/-! DEFINITION. The architectural effect of BEQ and of the unimplemented JALR (43_control.md). -/

namespace Sys2Proof.Machine

/-- BEQ: `pc <- (pc + 1) + sext_16(C)` if `x[A] == x[B]` in all 32 bits, else `pc <- pc + 1`. The target is
not checked here: a fetch that uses it is (43_control.md R240, R241). -/
def execBeq (a b : RegIdx) (c : BitVec 16) (s : State) : Host.Outcome State Fault Refusal :=
  if eqFlag (s.readReg a) (s.readReg b) then .next (s.setPc (branchTargetOf (s.pc + 1#32) (sext16 c)))
  else .next (advance s)

/-- JALR: fields A and B are decoded and unused; no jump, no link, no fault; the pc advances as for NOOP (43_control.md R246, D17). -/
def execJalr (_a _b : RegIdx) (s : State) : Host.Outcome State Fault Refusal := .next (advance s)

end Sys2Proof.Machine
end

