-- ==== Sys2Proof/Machine/LoadStore.lean ====
section
/-! DEFINITION. The architectural effect of LOAD and STORE (42_loadstore.md), with their one addressing mode and their one exception. -/

namespace Sys2Proof.Machine

/-- The address a LOAD or STORE with base register `a` and offset field `c` uses: `ea = x[A] + sext_16(C)`
(42_loadstore.md R220). -/
def dataAddress (a : RegIdx) (c : BitVec 16) (s : State) : Word := effectiveAddress (s.readReg a) (sext16 c)

/-- LOAD for any configuration: range check, then `x[B] <- MemRead(ea, 1)`; out of range it takes
DataAccessOutOfRange and writes nothing else (42_loadstore.md R221, 60_exceptions.md R301, R303). -/
def loadWord (cfg : Config) (a b : RegIdx) (c : BitVec 16) (s : State) : State :=
  if inRange cfg.dmemWords (dataAddress a c s) then
    advance (s.writeReg b (s.dmemWord (dataAddress a c s)))
  else takeFault (.dataAccessOutOfRange (dataAddress a c s)) s

/-- STORE for any configuration: range check, then `MemWrite(ea, 1, x[B])`; out of range it takes
DataAccessOutOfRange and writes nothing else (42_loadstore.md R222, 60_exceptions.md R301, R303). -/
def storeReg (cfg : Config) (a b : RegIdx) (c : BitVec 16) (s : State) : State :=
  if inRange cfg.dmemWords (dataAddress a c s) then
    advance (s.storeWord (dataAddress a c s) (s.readReg b))
  else takeFault (.dataAccessOutOfRange (dataAddress a c s)) s

/-- LOAD (`lw`) with the default memory sizes (42_loadstore.md R221). -/
def execLw (a b : RegIdx) (c : BitVec 16) (s : State) : Host.Outcome State Fault Refusal :=
  .next (loadWord Config.default a b c s)

/-- STORE (`sw`) with the default memory sizes (42_loadstore.md R222). -/
def execSw (a b : RegIdx) (c : BitVec 16) (s : State) : Host.Outcome State Fault Refusal :=
  .next (storeReg Config.default a b c s)

end Sys2Proof.Machine
end

