-- ==== Sys2Proof/Machine/System.lean ====
section
/-! DEFINITION. The architectural effect of HALT, NOOP and INERT words (44_system.md). -/

namespace Sys2Proof.Machine

/-- HALT: no register or memory write, and the run ends (44_system.md R260, 40_pipeline.md R190, R192). The
pc advances as for NOOP (DESIGN CHOICE: log entry 4). -/
def execHalt (s : State) : Host.Outcome State Fault Refusal := .next (haltRun (advance s))

/-- NOOP: no effect but the pc's advance (44_system.md R263). -/
def execNoop (s : State) : Host.Outcome State Fault Refusal := .next (advance s)

/-- INERT: no effect but the pc's advance, and no fault (44_system.md R266, 60_exceptions.md R304). -/
def execInert (s : State) : Host.Outcome State Fault Refusal := .next (advance s)

end Sys2Proof.Machine
end

