-- ==== Sys2Proof/Machine/Dispatch.lean ====
section
/-! DEFINITION. exec: the architectural effect of each instruction, one arm per constructor of Instr. -/

namespace Sys2Proof.Machine

/-- The effect an instruction has when it is executed on its own, as 41_alu.md to 44_system.md give it (the
sequential machine of 70_reset_and_hazards.md R346). -/
def exec (i : Instr) (s : State) : Host.Outcome State Fault Refusal :=
  match i with
  | .add a b d _ => Sys2Proof.Machine.execAdd a b d s
  | .nor a b d _ => Sys2Proof.Machine.execNor a b d s
  | .lw a b c => Sys2Proof.Machine.execLw a b c s
  | .sw a b c => Sys2Proof.Machine.execSw a b c s
  | .beq a b c => Sys2Proof.Machine.execBeq a b c s
  | .jalr a b _ => Sys2Proof.Machine.execJalr a b s
  | .halt _ => Sys2Proof.Machine.execHalt s
  | .noop _ => Sys2Proof.Machine.execNoop s
  | .inert _ _ => Sys2Proof.Machine.execInert s

end Sys2Proof.Machine
end

