-- ==== Sys2Proof/Machine/Pipeline.lean ====
section
/-! DEFINITION. The controller: the five stages, the load-use stall unit, the branch flush, the cycle they make up, and the clock edge that decides whether a cycle runs (40_pipeline.md). Every stage reads the snapshot `s` and writes the next state `n` being built (00_scope.md R11, 40_pipeline.md R131). -/

namespace Sys2Proof.Machine

/-! Fetch -/

/-- The fault Fetch raises: the pc is outside instruction memory, in any cycle that is computed, whatever
becomes of the word (40_pipeline.md R140, R141; 60_exceptions.md R300). -/
def fetchFault (c : Config) (s : State) : Option Fault :=
  if inRange c.imemWords s.pc then none else some (.instructionFetchOutOfRange s.pc)

/-- FETCH: the word at the pc and `pc+1` go to IFID, and the pc advances (40_pipeline.md R140). -/
def fetchStage (s n : State) : State :=
  (n.setIfid { instr := s.imemWord s.pc, pcPlus1 := s.pc + 1#32 }).setPc (s.pc + 1#32)

/-! Decode -/

/-- What Decode puts in IDEX for the word in IFID, registers read from the snapshot (40_pipeline.md R145 to R147). -/
def decodedLatch (s : State) : IdEx :=
  { instr := s.ifid.instr
    pcPlus1 := s.ifid.pcPlus1
    readRegA := s.readReg (decodeFields s.ifid.instr).a
    readRegB := s.readReg (decodeFields s.ifid.instr).b
    offset := (decodeFields s.ifid.instr).off
    opcode := (decodeFields s.ifid.instr).op
    dest := destOf (decodeFields s.ifid.instr) }

/-- DECODE, for every word whatever its opcode (40_pipeline.md R145). -/
def decodeStage (s n : State) : State := n.setIdex (decodedLatch s)

/-! Hazard unit -/

/-- The load-use test: a LOAD in IDEX whose destination is a source of the word in IFID. For a second LOAD
only its base counts (40_pipeline.md R150). It is the only check (R152). -/
def loadUse (s : State) : Bool :=
  decide (s.idex.opcode = .load) && isUser (decodeFields s.ifid.instr).op &&
    (destIs s.idex.dest (decodeFields s.ifid.instr).a ||
      (decide ((decodeFields s.ifid.instr).op ≠ .load) && destIs s.idex.dest (decodeFields s.ifid.instr).b))

/-- HAZARD: a stall holds the IFID word, rolls the pc and the recorded `pc+1` back by one, and puts a bubble
in IDEX (40_pipeline.md R151). -/
def hazardStage (s n : State) : State :=
  if loadUse s then
    ((n.setIfid { instr := s.ifid.instr, pcPlus1 := s.pc + 1#32 - 1#32 }).setPc (s.pc + 1#32 - 1#32)).setIdex
      IdEx.bubble
  else n

/-! Execute -/

/-- What Execute puts in EXMEM: branch target, flag and ALU result for every opcode, and the forwarded B
operand (40_pipeline.md R164 to R168). -/
def executedLatch (s : State) : ExMem :=
  { instr := s.idex.instr
    branchTarget := branchTargetOf s.idex.pcPlus1 s.idex.offset
    eq := eqFlag (operandA s) (operandB s)
    aluResult := aluResultOf s.idex.opcode (operandA s) (operandB s) s.idex.offset
    readRegB := operandB s
    opcode := s.idex.opcode
    dest := s.idex.dest }

/-- EXECUTE (40_pipeline.md R168). -/
def executeStage (s n : State) : State := n.setExmem (executedLatch s)

/-! Memory stage and branch flush -/

/-- The opcode in the Memory stage makes a data access: a LOAD or a STORE (40_pipeline.md R172, R173). -/
def accessesData (op : Op) : Bool := decide (op = .load) || decide (op = .store)

/-- The fault the Memory stage raises: a LOAD or STORE whose address is outside data memory (40_pipeline.md
R172, R173; 60_exceptions.md R301). -/
def memoryFault (c : Config) (s : State) : Option Fault :=
  if accessesData s.exmem.opcode && !inRange c.dmemWords s.exmem.aluResult then
    some (.dataAccessOutOfRange s.exmem.aluResult)
  else none

/-- What the Memory stage puts in MEMWB: the loaded word of a LOAD, else the ALU result (40_pipeline.md R170, R172). -/
def accessedLatch (s : State) : MemWb :=
  { instr := s.exmem.instr
    writeData := if s.exmem.opcode = .load then s.dmemWord s.exmem.aluResult else s.exmem.aluResult
    opcode := s.exmem.opcode
    dest := s.exmem.dest }

/-- The STORE's write of the forwarded B value (40_pipeline.md R173). -/
def storeStage (s n : State) : State :=
  if s.exmem.opcode = .store then n.storeWord s.exmem.aluResult s.exmem.readRegB else n

/-- The branch flush: a taken BEQ resets IFID, IDEX and EXMEM to bubbles and redirects the pc (40_pipeline.md R171).
Its writes come last, so they override Fetch, Decode, the stall unit and Execute (R176). -/
def flushStage (s n : State) : State :=
  if branchTaken s then
    (((n.setIfid IfId.bubble).setIdex IdEx.bubble).setExmem ExMem.bubble).setPc s.exmem.branchTarget
  else n

/-- MEMORY: fills MEMWB, performs the STORE, and flushes (40_pipeline.md R170 to R173). -/
def memoryStage (s n : State) : State := flushStage s (storeStage s (n.setMemwb (accessedLatch s)))

/-! Writeback -/

/-- What Writeback puts in WBRET, unconditionally (40_pipeline.md R175). -/
def retiredLatch (s : State) : WbRet :=
  { instr := s.memwb.instr, writeData := s.memwb.writeData, dest := s.memwb.dest }

/-- WRITEBACK: ADD, NOR and LOAD write their destination register, r0 included (40_pipeline.md R174, R175). -/
def writebackStage (s n : State) : State :=
  (if isWriter s.memwb.opcode then n.writeDest s.memwb.dest s.memwb.writeData else n).setWbret (retiredLatch s)

/-! The cycle -/

/-- The next state of a cycle that no stage faults in: the stages' writes in the order of 40_pipeline.md
R130, so that of two writes to one field the later wins (00_scope.md R12). -/
def nextState (s : State) : State :=
  writebackStage s (memoryStage s (executeStage s (hazardStage s (decodeStage s (fetchStage s
    (s.setCycles (s.cycles + 1)))))))

/-- The fault of a cycle, if any: with two, the data fault, which belongs to the older instruction
(60_exceptions.md R302). -/
def cycleFault (c : Config) (s : State) : Option Fault :=
  match memoryFault c s with
  | some f => some f
  | none => fetchFault c s

/-- `cycle(S)`: the fault record or the next state (40_pipeline.md R130). -/
def cycle (c : Config) (s : State) : Host.Outcome State Fault Refusal :=
  match cycleFault c s with
  | some f => .fault f
  | none => .next (nextState s)

/-- Computing one cycle: it commits the next state, or takes the fault and commits nothing else
(40_pipeline.md R190, 60_exceptions.md R303). -/
def commitCycle (c : Config) (s : State) : State :=
  match cycle c s with
  | .next n => n
  | .fault f => takeFault f s
  | .refused _ => s

/-- The extra cycle of `HALT_EXTRA_CYCLE = true`: commit, then `status <- Halted`; a fault of that cycle is
reported instead (40_pipeline.md R191). -/
def haltAfterCycle (c : Config) (s : State) : State :=
  match cycle c s with
  | .next n => haltRun n
  | .fault f => takeFault f s
  | .refused _ => s

/-- The cap is reached: `CYCLE_CAP` is a number and the counter is at least that (40_pipeline.md R193). -/
def capReachedAt (c : Config) (s : State) : Bool :=
  match c.cycleCap with
  | some n => decide (n ≤ s.cycles)
  | none => false

/-- `step(S)`: the tests at a cycle boundary in their order, a HALT in MEMWB, the cap, the cycle
(40_pipeline.md R190 to R193, 60_exceptions.md R306). A block that is not Running stays as it is
(10_state.md R66). -/
def advanceClock (c : Config) (s : State) : State :=
  if s.status ≠ .running then s
  else if s.memwb.opcode = .halt then (if c.haltExtraCycle then haltAfterCycle c s else haltRun s)
  else if capReachedAt c s then capRun s
  else commitCycle c s

/-- A rising clock edge: with `rst = 1` the reset state is loaded from the image ports, whatever the state;
with `rst = 0` one step is made (10_state.md R61, R62, R66). -/
def clockEdge (c : Config) (e : Edge) (s : State) : Host.Outcome State Fault Refusal :=
  match e with
  | .rst img => loadImage c img
  | .clk => .next (advanceClock c s)

end Sys2Proof.Machine
end

