-- ==== Sys2Proof/Machine/Step.lean ====
section
/-! DEFINITION. step, one clock cycle of the block with the spec's default parameters, and the placing of an instruction where the next step fetches. -/

namespace Sys2Proof.Machine

/-- One rising clock edge with `rst = 0`: `step(S)` of 40_pipeline.md R190 with the default parameters
(00_scope.md R8). The block always has a next state: a fault is recorded in `status` (60_exceptions.md R303). -/
def step (s : State) : Host.Outcome State Fault Refusal := clockEdge Config.default .clk s

/-- `s` with the instruction word whose `nbits` table bits are `w` at the index Fetch reads next, `imem[pc]`
(40_pipeline.md R140). The next step fetches it; its stages follow in the next four (70_reset_and_hazards.md R347). -/
def State.withFetchWord (s : State) (nbits w : Nat) : State := placeAtPc s (BitVec.ofNat 32 (w % 2 ^ nbits))

end Sys2Proof.Machine
end

