-- ==== Sys2Proof/Machine/Sequential.lean ====
section
/-! DEFINITION. The sequential machine of 70_reset_and_hazards.md R346, which executes one instruction at a time through exec, and the sequential view of a pipelined state: what it becomes when the words in its latches are finished in program order. -/

namespace Sys2Proof.Machine

/-- One step of the sequential machine: fetch at the pc with the range check of R140, then `exec` of the
decoded word; an ended run stays as it is (70_reset_and_hazards.md R346). -/
def seqStep (s : State) : Host.Outcome State Fault Refusal :=
  if s.status ≠ .running then .next s
  else
    match fetchFault Config.default s with
    | some f => .next (takeFault f s)
    | none => exec (decode (s.imemWord s.pc)) s

/-- `k` steps of the sequential machine. -/
def seqRun : Nat → State → Host.Outcome State Fault Refusal
  | 0, s => .next s
  | k + 1, s =>
    match seqStep s with
    | .next t => seqRun k t
    | .fault f => .fault f
    | .refused r => .refused r

/-- A state without what only the pipeline has: latches empty, counter 0; the pc counts only while the run
goes on, since no rule gives a sequential pc to an ended run (log entry 4). -/
def settle (s : State) : State :=
  { s with
    pc := if s.status = .running then s.pc else 0#32
    cycles := 0
    ifid := IfId.bubble
    idex := IdEx.bubble
    exmem := ExMem.bubble
    memwb := MemWb.bubble
    wbret := WbRet.bubble }

/-- A state on the way to the sequential view, and whether the younger words are still on the executed
path: not behind a HALT, a fault or a taken BEQ (40_pipeline.md R177, 44_system.md R261). -/
abbrev Progress := State × Bool

/-- Finishes the next younger word if it is on the path. -/
def Progress.andThen (p : Progress) (finish : State → Progress) : Progress :=
  if p.2 then finish p.1 else p

/-- Finishes the instruction in MEMWB: its register write (40_pipeline.md R174), or the end of the run (R190). -/
def finishMemwb (s t : State) : Progress :=
  if s.memwb.opcode = .halt then (haltRun t, false)
  else (if isWriter s.memwb.opcode then t.writeDest s.memwb.dest s.memwb.writeData else t, true)

/-- Finishes the instruction in EXMEM from what Execute left there: its data access, its register write, its
redirection (40_pipeline.md R170 to R174). -/
def finishExmem (c : Config) (s t : State) : Progress :=
  match s.exmem.opcode with
  | .add => (t.writeDest s.exmem.dest s.exmem.aluResult, true)
  | .nor => (t.writeDest s.exmem.dest s.exmem.aluResult, true)
  | .load =>
    if inRange c.dmemWords s.exmem.aluResult then
      (t.writeDest s.exmem.dest (t.dmemWord s.exmem.aluResult), true)
    else (takeFault (.dataAccessOutOfRange s.exmem.aluResult) t, false)
  | .store =>
    if inRange c.dmemWords s.exmem.aluResult then
      (t.storeWord s.exmem.aluResult s.exmem.readRegB, true)
    else (takeFault (.dataAccessOutOfRange s.exmem.aluResult) t, false)
  | .beq => if s.exmem.eq then (t.setPc s.exmem.branchTarget, false) else (t, true)
  | .jalr => (t, true)
  | .halt => (haltRun t, false)
  | .noop => (t, true)
  | .inert => (t, true)

/-- A BEQ whose registers are equal in `t` (43_control.md R240); no other instruction redirects. -/
def redirects (i : Instr) (t : State) : Bool :=
  match i with
  | .beq a b _ => eqFlag (t.readReg a) (t.readReg b)
  | .add _ _ _ _ => false
  | .nor _ _ _ _ => false
  | .lw _ _ _ => false
  | .sw _ _ _ => false
  | .jalr _ _ _ => false
  | .halt _ => false
  | .noop _ => false
  | .inert _ _ => false

/-- Finishes a fetched word that has not executed yet (in IFID or IDEX) by `exec` at its own index, one less
than its recorded `pc+1`; if it neither ends the run nor redirects, the pc goes back to the fetch pc. -/
def finishWord (w pcPlus1 : Word) (t : State) : Progress :=
  match exec (decode w) (t.setPc (pcPlus1 - 1#32)) with
  | .next e =>
    if e.status ≠ .running then (e, false)
    else if redirects (decode w) t then (e, false)
    else (e.setPc t.pc, true)
  | .fault _ => (t, false)
  | .refused _ => (t, false)

/-- Everything in flight finished in program order, oldest first: MEMWB, EXMEM, IDEX, IFID. -/
def finishInFlight (s : State) : Progress :=
  (((finishMemwb s (settle s)).andThen (finishExmem Config.default s)).andThen
    (finishWord s.idex.instr s.idex.pcPlus1)).andThen (finishWord s.ifid.instr s.ifid.pcPlus1)

/-- The sequential view of a pipelined state: the state of the sequential machine that has executed every
word on the path up to the youngest one in flight. An ended run is its own view (10_state.md R66). -/
def drain (s : State) : State := if s.status = .running then settle (finishInFlight s).1 else settle s

/-- The word Fetch reads in this cycle is the next one on the executed path and is not discarded: nothing in
flight ends the run or redirects, and the stall unit does not hold (40_pipeline.md R133, R151, R171). -/
def fetchesOnPath (s : State) : Bool :=
  decide (s.status = .running) && (finishInFlight s).2 && !loadUse s

end Sys2Proof.Machine
end

