-- ==== Sys2Proof/Machine/Timing.lean ====
section
/-! DEFINITION. Runs of clock edges and the events that a run's cycle count is made of (70_reset_and_hazards.md R347 to R349). -/

namespace Sys2Proof.Machine

/-- The state after `k` clock edges with `rst = 0` (10_state.md R61, R66). -/
def runClock (c : Config) : Nat → State → State
  | 0, s => s
  | k + 1, s => runClock c k (advanceClock c s)

/-- The edge at `s` computes a cycle and commits it: the block is Running, no HALT is in MEMWB, the cap is not
reached and no stage faults (40_pipeline.md R190 to R193). -/
def commits (c : Config) (s : State) : Bool :=
  decide (s.status = .running) && decide (s.memwb.opcode ≠ .halt) && !capReachedAt c s &&
    (cycleFault c s).isNone

/-- A load-use stall that counts: in a committed cycle, not overridden by a flush, and not on the words
behind a HALT in the Memory stage, which the run ends before they matter (70_reset_and_hazards.md R349;
the last clause is DEDUCED: log entry 6). -/
def stallCounts (c : Config) (s : State) : Bool :=
  commits c s && loadUse s && !branchTaken s && decide (s.exmem.opcode ≠ .halt)

/-- A taken BEQ in the Memory stage of a committed cycle (70_reset_and_hazards.md R349). -/
def branchCounts (c : Config) (s : State) : Bool := commits c s && branchTaken s

/-- `S_eff` of the first `k` edges (70_reset_and_hazards.md R349). -/
def stallsIn (c : Config) : Nat → State → Nat
  | 0, _ => 0
  | k + 1, s => (if stallCounts c s then 1 else 0) + stallsIn c k (advanceClock c s)

/-- `T` of the first `k` edges (70_reset_and_hazards.md R349). -/
def branchesIn (c : Config) : Nat → State → Nat
  | 0, _ => 0
  | k + 1, s => (if branchCounts c s then 1 else 0) + branchesIn c k (advanceClock c s)

end Sys2Proof.Machine
end

