-- ==== Sys2Proof/Safety.lean ====
section
/-! DEFINITION. What counts as a safe state of the block: the latch invariants of 10_state.md R51, the tracking of operands that the forwarding network relies on, and the form of the memories. -/

namespace Sys2Proof.Machine

/-- The run has not ended in a hard fault (60_exceptions.md R303). -/
def notFaulted (s : State) : Bool :=
  match s.status with
  | .running => true
  | .halted => true
  | .faulted _ _ => false
  | .capReached => true

/-- 10_state.md R51 (a): the opcode field of IDEX, EXMEM and MEMWB is that of their word. -/
def opcodesDecoded (s : State) : Bool :=
  decide (s.idex.opcode = opcodeOf s.idex.instr) && decide (s.exmem.opcode = opcodeOf s.exmem.instr) &&
    decide (s.memwb.opcode = opcodeOf s.memwb.instr)

/-- 10_state.md R51 (b): the destination field of every latch that has one is that of its word. -/
def destsDecoded (s : State) : Bool :=
  decide (s.idex.dest = destOf (decodeFields s.idex.instr)) &&
    decide (s.exmem.dest = destOf (decodeFields s.exmem.instr)) &&
    decide (s.memwb.dest = destOf (decodeFields s.memwb.instr)) &&
    decide (s.wbret.dest = destOf (decodeFields s.wbret.instr))

/-- 10_state.md R51 (c): whenever a stall fires, the `pc+1` recorded in IFID is the pc. -/
def stallHoldsIfid (s : State) : Bool := !loadUse s || decide (s.ifid.pcPlus1 = s.pc)

/-- What makes R51 (c) hold of the next state too: a LOAD in IDEX was decoded in a cycle with neither stall
nor flush, so Fetch gave IFID and the pc the same value (90_conflicts.md C7). -/
def loadFollowsFetch (s : State) : Bool :=
  !decide (s.idex.opcode = .load) || decide (s.ifid.pcPlus1 = s.pc)

/-- The offset field of IDEX is the sign-extended field C of its word (30_encoding.md R103). -/
def offsetDecoded (s : State) : Bool := decide (s.idex.offset = (decodeFields s.idex.instr).off)

/-- A register written in the last cycle still holds what WBRET says was written (40_pipeline.md R163). -/
def retiredValueHeld (s : State) : Bool :=
  match s.wbret.dest with
  | some r => decide (s.readReg r = s.wbret.writeData)
  | none => true

/-- The value Decode read for register `r` is the register's, or the register was written in that very
cycle, and then WBRET holds the new value (10_state.md R32, 40_pipeline.md R163). -/
def readIsCurrent (s : State) (r : RegIdx) (v : Word) : Bool :=
  decide (v = s.readReg r) || destIs s.wbret.dest r

/-- Both register values of an operand-using instruction in IDEX are current in that sense. -/
def operandsCurrent (s : State) : Bool :=
  !isUser s.idex.opcode ||
    (readIsCurrent s (decodeFields s.idex.instr).a s.idex.readRegA &&
      readIsCurrent s (decodeFields s.idex.instr).b s.idex.readRegB)

/-- No instruction in IDEX uses the destination of a LOAD in EXMEM: the stall has separated them
(40_pipeline.md R153, R169). -/
def loadUseSeparated (s : State) : Bool :=
  !decide (s.exmem.opcode = .load) || !isUser s.idex.opcode ||
    (!destIs s.exmem.dest (decodeFields s.idex.instr).a &&
      (decide (s.idex.opcode = .load) || !destIs s.exmem.dest (decodeFields s.idex.instr).b))

/-- The latch invariants of 10_state.md R51 and what the forwarding network and the stall unit rely on. -/
def latchesConsistent (s : State) : Bool :=
  opcodesDecoded s && destsDecoded s && loadFollowsFetch s && offsetDecoded s && retiredValueHeld s &&
    operandsCurrent s && loadUseSeparated s

/-- Both memories are in canonical form and list nothing outside their space (20_memory.md R80). -/
def memoriesWf (c : Config) (s : State) : Bool :=
  Memory.wf s.imem && Memory.wf s.dmem && Memory.within c.imemWords s.imem && Memory.within c.dmemWords s.dmem

end Sys2Proof.Machine
end

