-- ==== Sys2Proof/Certificates/Slice0/Obligations.lean ====
section
/-! DEFINITION. The statements about the model, one def per obligation. -/

open Sys2Proof Sys2Proof.Machine

/-! Encoding -/

/-- 30_encoding.md R100, R104, R108: decoding the word of a well-formed instruction gives the instruction back,
with every operand and every ignored bit at every value. That `Instr` keeps the ignored bits is the model's choice
(log entry 11, DESIGN CHOICE). -/
def Obligations.EncodedInstructionDecodesBack : Prop :=
  ∀ i : Instr, i.wf = true → decode (encode i) = i

/-- 30_encoding.md R101, R107: every word decodes, to a well-formed instruction. That the word is then the encoding
of that one instruction is the model's choice (log entry 11, DESIGN CHOICE): the constructors of `Instr` keep the
bits that R107 says an opcode ignores. -/
def Obligations.EveryWordIsOneInstruction : Prop :=
  ∀ w : Word, (decode w).wf = true ∧ encode (decode w) = w

/-- 30_encoding.md R100, R101, R103, R104, 10_state.md R43: the decoder's fields as arithmetic on the word, and
the 4-bit code the opcode has in the latches: its value, or 8 for INERT. The place of the opcode and the value
0 of the first opcode are the spec's decisions D1 and D2. -/
def Obligations.DecoderFieldsAreArithmeticOnTheWord : Prop :=
  ∀ w : Word,
    (decodeFields w).a.toNat = w.toNat / 2 ^ 19 % 8 ∧
    (decodeFields w).b.toNat = w.toNat / 2 ^ 16 % 8 ∧
    (decodeFields w).c.toNat = w.toNat % 2 ^ 16 ∧
    (decodeFields w).off.toInt =
      (if w.toNat % 2 ^ 16 < 2 ^ 15 then ((w.toNat % 2 ^ 16 : Nat) : Int)
        else ((w.toNat % 2 ^ 16 : Nat) : Int) - 2 ^ 16) ∧
    (decodeFields w).op =
      [Op.add, .nor, .load, .store, .beq, .jalr, .halt, .noop].getD (w.toNat / 2 ^ 22) .inert ∧
    (decodeFields w).op.code.toNat = min (w.toNat / 2 ^ 22) 8

/-- 40_pipeline.md R146, 30_encoding.md R108, 10_state.md R43: the destination field the Decode stage gives a
word, by the instruction the word is, and its hardware form: the valid bit is set for ADD, NOR and LOAD
only, with the index beside it, and valid = 0 is NONE whatever the index bits. That the field is NONE, not a
number, for the other opcodes is the spec's decision D4. -/
def Obligations.DestinationFieldFollowsTheInstruction : Prop :=
  (∀ w : Word, destOf (decodeFields w) =
    match decode w with
    | .add _ _ d _ => some d
    | .nor _ _ d _ => some d
    | .lw _ b _ => some b
    | .sw _ _ _ => none
    | .beq _ _ _ => none
    | .jalr _ _ _ => none
    | .halt _ => none
    | .noop _ => none
    | .inert _ _ => none) ∧
  (∀ w : Word,
    ((destWires (destOf (decodeFields w))).valid =
      if (decodeFields w).op ∈ [Op.add, .nor, .load] then 1#1 else 0#1) ∧
    (∀ r, destOf (decodeFields w) = some r → (destWires (destOf (decodeFields w))).index = r) ∧
    destOfWires (destWires (destOf (decodeFields w))) = destOf (decodeFields w)) ∧
  (∀ i : RegIdx, destOfWires { valid := 0#1, index := i } = none ∧
    destOfWires { valid := 1#1, index := i } = some i)

/-- Words written out from 30_encoding.md R100 and R104 (95_test_vectors.md) decode to what they stand for. -/
def Obligations.WrittenWordsDecode : Prop :=
  decode 0b0000000_000_010_011_0000000000000_001#32 = .add 2#3 3#3 1#3 0#13 ∧
  decode 0b0000000_001_001_010_0000000000000_011#32 = .nor 1#3 2#3 3#3 0#13 ∧
  decode 0b0000000_010_000_001_0000000000000110#32 = .lw 0#3 1#3 6#16 ∧
  decode 0b0000000_011_000_011_0000000000000111#32 = .sw 0#3 3#3 7#16 ∧
  decode 0b0000000_100_000_000_1111111111111100#32 = .beq 0#3 0#3 0xFFFC#16 ∧
  decode 0b0000000_101_001_010_0000000000000000#32 = .jalr 1#3 2#3 0#16 ∧
  decode 0b0000000_110_000_000_0000000000000000#32 = .halt 0#22 ∧
  decode 0b0000000_111_000_000_0000000000000000#32 = .noop 0#22 ∧
  decode 0b0000001_000_000_000_0000000000000000#32 = .inert 1#7 0#25

/-- 30_encoding.md R107, 44_system.md R263: the bits an opcode ignores have no effect on what it does. -/
def Obligations.IgnoredBitsHaveNoEffect : Prop :=
  (∀ a b d x y s, exec (.add a b d x) s = exec (.add a b d y) s) ∧
  (∀ a b d x y s, exec (.nor a b d x) s = exec (.nor a b d y) s) ∧
  (∀ a b a' b' x y s, exec (.jalr a b x) s = exec (.jalr a' b' y) s) ∧
  (∀ x y s, exec (.halt x) s = exec (.halt y) s) ∧
  (∀ x y s, exec (.noop x) s = exec (.noop y) s) ∧
  (∀ e e' x y s, exec (.inert e x) s = exec (.inert e' y) s)

/-! The architectural effect of each instruction -/

/-- 41_alu.md R200: ADD completes from every state, writes the sum modulo 2^32 (D9) to its destination, r0
included, advances the pc, and changes nothing else. -/
def Obligations.AddWritesTheSum : Prop :=
  ∀ (a b d : RegIdx) (x : BitVec 13) (s : State), ∃ t, exec (.add a b d x) s = .next t ∧
    (t.readReg d).toNat = ((s.readReg a).toNat + (s.readReg b).toNat) % 2 ^ 32 ∧
    (∀ r, r ≠ d → t.readReg r = s.readReg r) ∧
    t = { s with pc := s.pc + 1#32, reg := t.reg }

/-- 41_alu.md R201: NOR completes from every state, writes the bitwise NOR to its destination, advances the
pc, and changes nothing else. -/
def Obligations.NorWritesTheBitwiseNor : Prop :=
  ∀ (a b d : RegIdx) (x : BitVec 13) (s : State), ∃ t, exec (.nor a b d x) s = .next t ∧
    (∀ i, i < 32 → (t.readReg d).getLsbD i = !((s.readReg a).getLsbD i || (s.readReg b).getLsbD i)) ∧
    (∀ r, r ≠ d → t.readReg r = s.readReg r) ∧
    t = { s with pc := s.pc + 1#32, reg := t.reg }

/-- 42_loadstore.md R220, R221: an in-range LOAD completes, writes the whole word at its address to register
B, advances the pc, and changes nothing else; it stores nothing. -/
def Obligations.LoadWritesTheWordAtItsAddress : Prop :=
  ∀ (a b : RegIdx) (c : BitVec 16) (s : State),
    0 ≤ (s.readReg a + sext16 c).toInt → (s.readReg a + sext16 c).toInt < 65536 →
    ∃ t, exec (.lw a b c) s = .next t ∧
      t.readReg b = memRead s.dmem (s.readReg a + sext16 c).toNat ∧
      (∀ r, r ≠ b → t.readReg r = s.readReg r) ∧
      t = { s with pc := s.pc + 1#32, reg := t.reg }

/-- 42_loadstore.md R220, R222, 20_memory.md R84: an in-range STORE completes, writes register B to the one
word at its address, advances the pc, and changes nothing else: no other word of data memory, and
instruction memory not at all. -/
def Obligations.StoreWritesTheWordAtItsAddress : Prop :=
  ∀ (a b : RegIdx) (c : BitVec 16) (s : State), Memory.wf s.dmem = true →
    0 ≤ (dataAddress a c s).toInt → (dataAddress a c s).toInt < 65536 →
    ∃ t, exec (.sw a b c) s = .next t ∧
      dataAddress a c s = s.readReg a + sext16 c ∧
      memRead t.dmem (dataAddress a c s).toNat = s.readReg b ∧
      (∀ k, k ≠ (dataAddress a c s).toNat → memRead t.dmem k = memRead s.dmem k) ∧
      t = { s with pc := s.pc + 1#32, dmem := t.dmem }

/-- 42_loadstore.md R221, R222, 60_exceptions.md R301, R303: out of range, read as signed, LOAD and STORE take
DataAccessOutOfRange with the effective address, and change nothing but the status. Not committing
the rest is the spec's decision D12. That the record's cycle number is the counter plus 1 is the model's choice
for `exec` (log entry 12): R303 numbers the block's cycles only. -/
def Obligations.OutOfRangeLoadAndStoreTakeTheFault : Prop :=
  ∀ (a b : RegIdx) (c : BitVec 16) (s : State),
    (s.readReg a + sext16 c).toInt < 0 ∨ 65536 ≤ (s.readReg a + sext16 c).toInt →
    exec (.lw a b c) s =
      .next { s with status := .faulted (.dataAccessOutOfRange (s.readReg a + sext16 c)) (s.cycles + 1) } ∧
    exec (.sw a b c) s =
      .next { s with status := .faulted (.dataAccessOutOfRange (s.readReg a + sext16 c)) (s.cycles + 1) }

/-- 43_control.md R240: BEQ completes from every state and changes the pc only: to `pc + 1 + sext_16(C)` if
the two registers are equal, else to `pc + 1`. -/
def Obligations.BeqChangesOnlyThePc : Prop :=
  ∀ (a b : RegIdx) (c : BitVec 16) (s : State),
    (s.readReg a = s.readReg b →
      exec (.beq a b c) s = .next { s with pc := s.pc + 1#32 + sext16 c }) ∧
    (s.readReg a ≠ s.readReg b → exec (.beq a b c) s = .next { s with pc := s.pc + 1#32 })

/-- 43_control.md R246, 44_system.md R263, R266: JALR, NOOP and INERT words complete from every state and
change nothing but the pc, which advances. For JALR and INERT this is the spec's decision D17, D18. -/
def Obligations.JalrNoopAndInertOnlyAdvanceThePc : Prop :=
  ∀ s : State,
    (∀ a b x, exec (.jalr a b x) s = .next { s with pc := s.pc + 1#32 }) ∧
    (∀ x, exec (.noop x) s = .next { s with pc := s.pc + 1#32 }) ∧
    (∀ e x, exec (.inert e x) s = .next { s with pc := s.pc + 1#32 })

/-- 44_system.md R260: HALT completes from every state; it ends the run and writes no register and no memory.
That the architectural pc advances past it is the model's choice (log entry 4). -/
def Obligations.HaltEndsTheRunAndWritesNothing : Prop :=
  ∀ (x : BitVec 22) (s : State),
    exec (.halt x) s = .next { s with pc := s.pc + 1#32, status := .halted }

/-! The cycle, stage by stage -/

/-- 40_pipeline.md R130, R132: for any parameters the cycle is total apart from the faults: it gives a next state
that still runs as before and counts one cycle, or a fault, and is never refused. That `step` then has a next
state from every state, the faulting and the stopped ones too, is the model's reading of R303 and R54 (log
entry 8, DEDUCED): a fault is recorded in `status` and is no outcome `fault` of the step. -/
def Obligations.EveryStepHasANextState : Prop :=
  ∀ s : State, (∃ n, step s = .next n) ∧
    ∀ c : Config, (∃ n, cycle c s = .next n ∧ n.status = s.status ∧ n.cycles = s.cycles + 1) ∨
      (∃ f, cycle c s = .fault f)

/-- 40_pipeline.md R140: with no stall and no flush, the cycle puts the word at the pc and `pc+1` in IFID and
advances the pc. -/
def Obligations.FetchFillsIfidAndAdvancesThePc : Prop :=
  ∀ s : State, commits Config.default s = true → loadUse s = false → branchTaken s = false →
    ∃ n, step s = .next n ∧ n.pc = s.pc + 1#32 ∧
      n.ifid = { instr := memRead s.imem s.pc.toNat, pcPlus1 := s.pc + 1#32 }

/-- 10_state.md R36: the precedence of the writes to the pc; no other instruction writes it. That the flush's
write beats the stall's is the spec's decision D15 (R12, R176), and that `pc + 1` wraps is D9; the model
follows them (log entry 10). -/
def Obligations.PcIsWrittenInPrecedenceOrder : Prop :=
  ∀ s : State, commits Config.default s = true → ∃ n, step s = .next n ∧
    n.pc =
      (if s.exmem.opcode = .beq ∧ s.exmem.eq = true then s.exmem.branchTarget
        else if loadUse s = true then s.pc else s.pc + 1#32)

/-- 40_pipeline.md R145, R147: with no stall and no flush, IDEX gets the decoded word of IFID with the two
source registers read from the snapshot, whatever Writeback writes in the same cycle. -/
def Obligations.DecodeFillsIdexFromTheSnapshot : Prop :=
  ∀ s : State, commits Config.default s = true → loadUse s = false → branchTaken s = false →
    ∃ n, step s = .next n ∧
      n.idex =
        { instr := s.ifid.instr
          pcPlus1 := s.ifid.pcPlus1
          readRegA := s.readReg (decodeFields s.ifid.instr).a
          readRegB := s.readReg (decodeFields s.ifid.instr).b
          offset := (decodeFields s.ifid.instr).off
          opcode := (decodeFields s.ifid.instr).op
          dest := destOf (decodeFields s.ifid.instr) }

/-- 40_pipeline.md R150: the load-use test, exactly. -/
def Obligations.LoadUseTestIsExact : Prop :=
  ∀ s : State, loadUse s = true ↔
    s.idex.opcode = .load ∧
      (decodeFields s.ifid.instr).op ∈ [Op.add, .nor, .beq, .store, .load] ∧
      (s.idex.dest = some (decodeFields s.ifid.instr).a ∨
        ((decodeFields s.ifid.instr).op ≠ .load ∧ s.idex.dest = some (decodeFields s.ifid.instr).b))

/-- 40_pipeline.md R151: a stall holds the IFID word, rolls the pc and the recorded `pc+1` back, and puts a
bubble in IDEX, in place of what Fetch and Decode write. That a taken BEQ in the same cycle overrides it is the
spec's decision D15 (R176), and the zeros of the bubbles are D5 (R50; log entry 10). That the held IFID is S.IFID
itself in a state with consistent latches rests on R51 (c), which the spec derives. -/
def Obligations.StallHoldsTheWordAndInsertsABubble : Prop :=
  ∀ s : State, commits Config.default s = true → loadUse s = true →
    ∃ n, step s = .next n ∧
      (branchTaken s = false →
        n.ifid.instr = s.ifid.instr ∧ n.ifid.pcPlus1 = s.pc ∧ n.pc = s.pc ∧ n.idex = IdEx.bubble ∧
          (latchesConsistent s = true → n.ifid = s.ifid)) ∧
      (branchTaken s = true →
        n.ifid = IfId.bubble ∧ n.idex = IdEx.bubble ∧ n.exmem = ExMem.bubble ∧ n.pc = s.exmem.branchTarget)

/-- 40_pipeline.md R153 (a), R152: after a cycle in which a stall fired, none fires in the next. -/
def Obligations.NoStallFollowsAStall : Prop :=
  ∀ s : State, commits Config.default s = true → loadUse s = true →
    ∃ n, step s = .next n ∧ loadUse n = false

/-- 40_pipeline.md R160: the forwarding unit's priority order. -/
def Obligations.NearestProducerWins : Prop :=
  ∀ (s : State) (r : RegIdx) (v : Word),
    let hit1 := s.exmem.dest = some r ∧ s.exmem.opcode ∈ [Op.add, .nor, .load]
    let hit2 := s.memwb.dest = some r ∧ s.memwb.opcode ∈ [Op.add, .nor, .load]
    let hit3 := s.wbret.dest = some r ∧ (decodeFields s.wbret.instr).op ∈ [Op.add, .nor, .load]
    (hit1 → fwd s r v = s.exmem.aluResult) ∧
    (¬hit1 → hit2 → fwd s r v = s.memwb.writeData) ∧
    (¬hit1 → ¬hit2 → hit3 → fwd s r v = s.wbret.writeData) ∧
    (¬hit1 → ¬hit2 → ¬hit3 → fwd s r v = v)

/-- 70_reset_and_hazards.md R346, 41_alu.md R202, R203, 42_loadstore.md R224: with consistent latches, the
operands Execute resolves are the register values after the two older instructions have finished, in the
model's sequential view of them (log entry 1, DEDUCED). -/
def Obligations.ForwardedOperandsAreTheSequentialValues : Prop :=
  ∀ s : State, latchesConsistent s = true → isUser s.idex.opcode = true →
    let older := (finishExmem Config.default s (finishMemwb s s).1).1
    operandA s = older.readReg (decodeFields s.idex.instr).a ∧
    (s.idex.opcode ≠ .load → operandB s = older.readReg (decodeFields s.idex.instr).b)

/-- 40_pipeline.md R164 to R168: without a flush, EXMEM gets the branch target, the equality of the two
forwarded operands and the ALU result, each for every opcode. The 0 of the opcodes without an ALU
operation is the spec's decision D16. -/
def Obligations.ExecuteFillsExmem : Prop :=
  ∀ s : State, commits Config.default s = true → branchTaken s = false →
    ∃ n, step s = .next n ∧
      n.exmem =
        { instr := s.idex.instr
          branchTarget := s.idex.pcPlus1 + s.idex.offset
          eq := decide (fwd s (decodeFields s.idex.instr).a s.idex.readRegA =
            fwd s (decodeFields s.idex.instr).b s.idex.readRegB)
          aluResult :=
            if s.idex.opcode = .add then
              fwd s (decodeFields s.idex.instr).a s.idex.readRegA +
                fwd s (decodeFields s.idex.instr).b s.idex.readRegB
            else if s.idex.opcode = .nor then
              ~~~(fwd s (decodeFields s.idex.instr).a s.idex.readRegA |||
                fwd s (decodeFields s.idex.instr).b s.idex.readRegB)
            else if s.idex.opcode = .load ∨ s.idex.opcode = .store then
              fwd s (decodeFields s.idex.instr).a s.idex.readRegA + s.idex.offset
            else 0#32
          readRegB := fwd s (decodeFields s.idex.instr).b s.idex.readRegB
          opcode := s.idex.opcode
          dest := s.idex.dest }

/-- 40_pipeline.md R170, R172: MEMWB gets the loaded word of a LOAD and the ALU result of every other opcode
(for the opcodes that write nothing back, the spec's decision D16). -/
def Obligations.MemoryStageFillsMemwb : Prop :=
  ∀ s : State, commits Config.default s = true → ∃ n, step s = .next n ∧
    n.memwb =
      { instr := s.exmem.instr
        writeData := if s.exmem.opcode = .load then memRead s.dmem s.exmem.aluResult.toNat else s.exmem.aluResult
        opcode := s.exmem.opcode
        dest := s.exmem.dest }

/-- 20_memory.md R94, 40_pipeline.md R173: in a committed cycle the one word of data memory that can change is
the one a STORE in the Memory stage addresses, and instruction memory is not written. -/
def Obligations.DataMemoryIsWrittenByTheMemoryStageOnly : Prop :=
  ∀ s : State, Memory.wf s.dmem = true → commits Config.default s = true →
    ∃ n, step s = .next n ∧ n.imem = s.imem ∧
      ∀ k, memRead n.dmem k =
        if s.exmem.opcode = .store ∧ k = s.exmem.aluResult.toNat then s.exmem.readRegB else memRead s.dmem k

/-- 40_pipeline.md R171: a BEQ with its flag set in the Memory stage resets IFID, IDEX and EXMEM to bubbles and
redirects the pc; one with its flag clear writes nothing there, and fetch goes on at `pc+1`. That the flush wins
when a stall fires in the same cycle is the spec's decision D15 (R176), and the bubbles' zero data fields are
D5 (R50; log entry 10). -/
def Obligations.TakenBeqFlushesAndRedirects : Prop :=
  ∀ s : State, commits Config.default s = true → s.exmem.opcode = .beq → ∃ n, step s = .next n ∧
    (s.exmem.eq = true →
      n.ifid = IfId.bubble ∧ n.idex = IdEx.bubble ∧ n.exmem = ExMem.bubble ∧ n.pc = s.exmem.branchTarget) ∧
    (s.exmem.eq = false → loadUse s = false →
      n.ifid = { instr := memRead s.imem s.pc.toNat, pcPlus1 := s.pc + 1#32 } ∧ n.idex = decodedLatch s ∧
        n.exmem = executedLatch s ∧ n.pc = s.pc + 1#32)

/-- 40_pipeline.md R177, 43_control.md R243: after a taken BEQ nothing squashed writes: through the four
following cycles no register changes, through the three following ones no data word does, and the
word at the target is the next one fetched. -/
def Obligations.SquashedWordsNeverWrite : Prop :=
  ∀ s : State, branchTaken s = true →
    (∀ k, k < 5 → commits Config.default (runClock Config.default k s) = true) →
    (runClock Config.default 1 s).pc = s.exmem.branchTarget ∧
    (runClock Config.default 2 s).ifid.instr = memRead s.imem s.exmem.branchTarget.toNat ∧
    (runClock Config.default 5 s).reg = (runClock Config.default 1 s).reg ∧
    (runClock Config.default 4 s).dmem = (runClock Config.default 1 s).dmem

/-- 10_state.md R33, 40_pipeline.md R174: in a committed cycle the one register that can change is the
destination of an ADD, NOR or LOAD in MEMWB; r0 is written like every other. That such an opcode with the
destination NONE, a case no run reaches, writes no register is the model's inference (log entry 5). -/
def Obligations.RegistersAreWrittenByWritebackOnly : Prop :=
  ∀ s : State, commits Config.default s = true → ∃ n, step s = .next n ∧
    ∀ r, n.readReg r =
      if s.memwb.opcode ∈ [Op.add, .nor, .load] ∧ s.memwb.dest = some r then s.memwb.writeData else s.readReg r

/-- 40_pipeline.md R175: Writeback fills WBRET unconditionally. -/
def Obligations.WritebackFillsWbretUnconditionally : Prop :=
  ∀ s : State, commits Config.default s = true → ∃ n, step s = .next n ∧
    n.wbret = { instr := s.memwb.instr, writeData := s.memwb.writeData, dest := s.memwb.dest }

/-- 40_pipeline.md R133: in a committed cycle each instruction moves one latch forward, but for a stall, which
keeps the IFID word and puts a bubble in IDEX, and a taken BEQ, which replaces three latches by bubbles. R133
gives the two exceptions no order: that the taken BEQ goes over the stall is the spec's decision D15 (R176),
and the zeros of the bubbles are D5 (R50; log entry 10). -/
def Obligations.InstructionsMoveOneLatchForward : Prop :=
  ∀ s : State, commits Config.default s = true → ∃ n, step s = .next n ∧
    n.memwb.instr = s.exmem.instr ∧ n.wbret.instr = s.memwb.instr ∧
    (branchTaken s = false → n.exmem.instr = s.idex.instr) ∧
    (branchTaken s = false → loadUse s = false →
      n.ifid.instr = memRead s.imem s.pc.toNat ∧ n.idex.instr = s.ifid.instr) ∧
    (branchTaken s = false → loadUse s = true → n.ifid.instr = s.ifid.instr ∧ n.idex = IdEx.bubble) ∧
    (branchTaken s = true → n.ifid = IfId.bubble ∧ n.idex = IdEx.bubble ∧ n.exmem = ExMem.bubble)

/-- 43_control.md R242: an untaken BEQ in the Memory stage has the effect a NOOP there has: with the opcode of
EXMEM replaced by NOOP the next state is the same but for the opcode passed on to MEMWB; nothing is
squashed, and the pc goes on as always until a taken BEQ reaches the Memory stage. -/
def Obligations.UntakenBeqActsAsNoop : Prop :=
  ∀ s : State, commits Config.default s = true → s.exmem.opcode = .beq → s.exmem.eq = false →
    ∃ n, step s = .next n ∧
      step { s with exmem := { s.exmem with opcode := .noop } } =
        .next { n with memwb := { n.memwb with opcode := .noop } } ∧
      n.exmem.instr = s.idex.instr ∧
      (loadUse s = false → n.idex.instr = s.ifid.instr ∧ n.ifid.instr = memRead s.imem s.pc.toNat ∧
        n.pc = s.pc + 1#32) ∧
      (loadUse s = true → n.ifid.instr = s.ifid.instr ∧ n.pc = s.pc)

/-- 20_memory.md R89: a LOAD in the Memory stage in the cycle after a STORE to the same index gets the word the
STORE wrote. -/
def Obligations.LoadAfterStoreReadsTheStoredWord : Prop :=
  ∀ s : State, Memory.wf s.dmem = true → commits Config.default s = true → s.exmem.opcode = .store →
    ∃ n, step s = .next n ∧
      (commits Config.default n = true → n.exmem.opcode = .load → n.exmem.aluResult = s.exmem.aluResult →
        ∃ n', step n = .next n' ∧ n'.memwb.writeData = s.exmem.readRegB)

/-! Ending a run, faults, reset, host -/

/-- 40_pipeline.md R190, R191 (decision D14): a HALT in MEMWB at the start of a cycle ends the run: without a
further cycle by default, after one more, which may fault, with HALT_EXTRA_CYCLE. -/
def Obligations.HaltInMemwbEndsTheRun : Prop :=
  ∀ (c : Config) (s : State), s.status = .running → s.memwb.opcode = .halt →
    (c.haltExtraCycle = false → advanceClock c s = { s with status := .halted }) ∧
    (c.haltExtraCycle = true → cycleFault c s = none →
      advanceClock c s = { nextState s with status := .halted }) ∧
    (c.haltExtraCycle = true → ∀ f, cycleFault c s = some f →
      advanceClock c s = { s with status := .faulted f (s.cycles + 1) })

/-- 40_pipeline.md R192: HALT ends a run only from MEMWB. -/
def Obligations.HaltActsOnlyFromMemwb : Prop :=
  ∀ (c : Config) (s : State), s.status = .running → s.memwb.opcode ≠ .halt →
    (advanceClock c s).status ≠ .halted

/-- 40_pipeline.md R193, 60_exceptions.md R306 (decision D21): the cap is tested after the halt and stops the
run without a cycle; with no cap the status never becomes CapReached (R194). -/
def Obligations.CycleCapStopsTheRun : Prop :=
  ∀ (c : Config) (s : State), s.status = .running → s.memwb.opcode ≠ .halt →
    (∀ cap, c.cycleCap = some cap → cap ≤ s.cycles → advanceClock c s = { s with status := .capReached }) ∧
    (∀ cap, c.cycleCap = some cap → s.cycles < cap → (advanceClock c s).status ≠ .capReached) ∧
    (c.cycleCap = none → (advanceClock c s).status ≠ .capReached)

/-- 60_exceptions.md R301, R302, R303, 20_memory.md R86 (decisions D10, D12, D13): for any parameters, a LOAD or
STORE in the Memory stage whose address is outside the DMEM_WORDS words of data memory makes the cycle fault
with DataAccessOutOfRange, even when the fetch is out of range too; the edge ends the run with it, and nothing
of the cycle is committed. -/
def Obligations.DataFaultIsTakenFirstAndCommitsNothing : Prop :=
  ∀ (c : Config) (s : State), s.exmem.opcode = .load ∨ s.exmem.opcode = .store →
    s.exmem.aluResult.toInt < 0 ∨ (c.dmemWords : Int) ≤ s.exmem.aluResult.toInt →
    cycle c s = .fault (.dataAccessOutOfRange s.exmem.aluResult) ∧
    (s.status = .running → s.memwb.opcode ≠ .halt → capReachedAt c s = false →
      advanceClock c s = { s with status := .faulted (.dataAccessOutOfRange s.exmem.aluResult) (s.cycles + 1) })

/-- 60_exceptions.md R300, R303, 40_pipeline.md R140, R141, 20_memory.md R86 (decisions D10, D11, D12): for any
parameters, a cycle that raises no data fault and whose pc is outside the IMEM_WORDS words of instruction
memory faults with InstructionFetchOutOfRange, even when a stall or a flush would discard the fetched word; the
edge ends the run with it, and nothing of the cycle is committed. -/
def Obligations.FetchFaultIsTakenWhateverBecomesOfTheWord : Prop :=
  ∀ (c : Config) (s : State),
    ((s.exmem.opcode ≠ .load ∧ s.exmem.opcode ≠ .store) ∨
      (0 ≤ s.exmem.aluResult.toInt ∧ s.exmem.aluResult.toInt < (c.dmemWords : Int))) →
    s.pc.toInt < 0 ∨ (c.imemWords : Int) ≤ s.pc.toInt →
    cycle c s = .fault (.instructionFetchOutOfRange s.pc) ∧
    (s.status = .running → s.memwb.opcode ≠ .halt → capReachedAt c s = false →
      advanceClock c s = { s with status := .faulted (.instructionFetchOutOfRange s.pc) (s.cycles + 1) })

/-- 60_exceptions.md R304: there are no other faults, for any opcode in any latch and any parameters: data
accesses are held to DMEM_WORDS, fetches to IMEM_WORDS. -/
def Obligations.OnlyOutOfRangeAccessesFault : Prop :=
  ∀ (c : Config) (s : State) (f : Fault) (k : Nat), s.status = .running →
    (advanceClock c s).status = .faulted f k →
    (f = .dataAccessOutOfRange s.exmem.aluResult ∧ (s.exmem.opcode = .load ∨ s.exmem.opcode = .store) ∧
      ¬(0 ≤ s.exmem.aluResult.toInt ∧ s.exmem.aluResult.toInt < (c.dmemWords : Int))) ∨
    (f = .instructionFetchOutOfRange s.pc ∧ ¬(0 ≤ s.pc.toInt ∧ s.pc.toInt < (c.imemWords : Int)))

/-- 10_state.md R54, R66, 60_exceptions.md R315 (decision D19): once the status is not Running, no number of
clock edges changes anything. -/
def Obligations.StoppedBlockStaysFrozen : Prop :=
  ∀ (c : Config) (k : Nat) (s : State), s.status ≠ .running → runClock c k s = s

/-- 20_memory.md R86 (decisions D7, D10): for every memory size the spec allows, the signed range check admits
exactly the indices below the size. -/
def Obligations.RangeCheckAdmitsExactlyTheIndices : Prop :=
  ∀ (size : Nat) (a : Word), size ≤ 2 ^ 31 →
    (inRange size a = true ↔ a.toNat < size) ∧
    (inRange size a = true ↔ 0 ≤ a.toInt ∧ a.toInt < (size : Int))

/-- 10_state.md R42, 60_exceptions.md R311 (decision D20): a committed cycle adds 1 to the counter, and a step
that faults, halts or finds the block stopped leaves it. -/
def Obligations.CounterCountsCommittedCycles : Prop :=
  ∀ s n : State, step s = .next n →
    n.cycles = if commits Config.default s = true then s.cycles + 1 else s.cycles

/-- 10_state.md R42: nothing depends on the counter but the counter itself and the cycle number of a fault
record: the two runs have the same status, or take the same fault, kind and address, each with its own number. -/
def Obligations.NothingDependsOnTheCounter : Prop :=
  ∀ (s n n' : State) (k : Nat), step s = .next n → step { s with cycles := k } = .next n' →
    n = { n' with cycles := n.cycles, status := n.status } ∧
    (n.status = n'.status ∨
      ∃ f, s.status = .running ∧ n.status = .faulted f (s.cycles + 1) ∧ n'.status = .faulted f (k + 1))

/-- 40_pipeline.md R165, R166, R167, R170, 10_state.md R53, 93_implementation_defined.md I1, I3 and I4: the values
the document calls unused reach no register, no memory and no pc: changing the branch target and the flag
of an opcode other than BEQ in EXMEM changes nothing, changing the ALU result of a non-ALU opcode in EXMEM
only the value passed to MEMWB, changing the write-back value of a non-writer in MEMWB only that passed to
WBRET, and changing that of a non-writer in WBRET nothing. -/
def Obligations.UnusedValuesReachNothing : Prop :=
  ∀ (s n : State) (v : Word), commits Config.default s = true → step s = .next n →
    (s.exmem.opcode ≠ .beq → ∀ b : Bool,
      step { s with exmem := { s.exmem with branchTarget := v, eq := b } } = .next n) ∧
    (s.exmem.opcode ∉ [Op.add, .nor, .load, .store] →
      step { s with exmem := { s.exmem with aluResult := v } } =
        .next { n with memwb := { n.memwb with writeData := v } }) ∧
    (s.memwb.opcode ∉ [Op.add, .nor, .load] →
      step { s with memwb := { s.memwb with writeData := v } } =
        .next { n with wbret := { n.wbret with writeData := v } }) ∧
    ((decodeFields s.wbret.instr).op ∉ [Op.add, .nor, .load] →
      step { s with wbret := { s.wbret with writeData := v } } = .next n)

/-- 20_memory.md R91: a store is never seen by instruction fetch: no run of any length changes a word of
instruction memory. -/
def Obligations.InstructionMemoryNeverChanges : Prop :=
  ∀ (c : Config) (k : Nat) (s : State), (runClock c k s).imem = s.imem

/-- 10_state.md R67, 70_reset_and_hazards.md R340: the reset state with the empty image. The register values,
the bubble's data fields and the memory contents are the spec's decisions D5 to D8. -/
def Obligations.ResetValuesAreTheSpecs : Prop :=
  State.reset.pc = 0#32 ∧ State.reset.cycles = 0 ∧ (∀ r, State.reset.readReg r = 0#32) ∧
  (∀ k, memRead State.reset.imem k = 0#32 ∧ memRead State.reset.dmem k = 0#32) ∧
  State.reset.ifid = { instr := 0x01C00000#32, pcPlus1 := 0#32 } ∧
  State.reset.idex =
    { instr := 0x01C00000#32, pcPlus1 := 0#32, readRegA := 0#32, readRegB := 0#32, offset := 0#32,
      opcode := .noop, dest := none } ∧
  State.reset.exmem =
    { instr := 0x01C00000#32, branchTarget := 0#32, eq := false, aluResult := 0#32, readRegB := 0#32,
      opcode := .noop, dest := none } ∧
  State.reset.memwb = { instr := 0x01C00000#32, writeData := 0#32, opcode := .noop, dest := none } ∧
  State.reset.wbret = { instr := 0x01C00000#32, writeData := 0#32, dest := none } ∧
  State.reset.status = .running

/-- 10_state.md R41, R62, 70_reset_and_hazards.md R340, R342 (decisions D7, D8, D19): an edge with `rst` high
loads an image that fits into both memories at the same indices, zeros above it, everything else at
its reset value, whatever state the block was in; an image that does not fit is refused. -/
def Obligations.ResetEdgeLoadsTheImageIntoBothMemories : Prop :=
  ∀ (c : Config) (img : List Word) (s : State),
    (img.length ≤ c.imemWords ∧ img.length ≤ c.dmemWords →
      ∃ t, clockEdge c (.rst img) s = .next t ∧
        (∀ k, memRead t.imem k = img.getD k 0#32 ∧ memRead t.dmem k = img.getD k 0#32) ∧
        t = { State.reset with imem := t.imem, dmem := t.dmem }) ∧
    (¬(img.length ≤ c.imemWords ∧ img.length ≤ c.dmemWords) →
      clockEdge c (.rst img) s = .refused (.imageTooLong img.length))

/-- 10_state.md R60, R64, R65, 60_exceptions.md R305 (decisions D19, D27): what the host sees. -/
def Obligations.HostSeesTheStateAndTheFinalCounters : Prop :=
  ∀ s : State,
    (outputs s).stateOut = s ∧ (outputs s).cycles = s.cycles ∧ (outputs s).status = s.status ∧
    (outputs s).statusCode =
      (match s.status with
        | .running => 0
        | .faulted (.instructionFetchOutOfRange _) _ => 1
        | .faulted (.dataAccessOutOfRange _) _ => 2
        | .halted => 3
        | .capReached => 4) ∧
    (s.status = .running → finalReport s = none) ∧
    (s.status ≠ .running → finalReport s = some { cycles := s.cycles, reg := s.reg, dmem := s.dmem })

/-! Invariants -/

/-- 10_state.md R51: every step keeps the latch invariants, from every state that has them. -/
def Obligations.StepKeepsTheLatchesConsistent : Prop :=
  ∀ s n : State, latchesConsistent s = true → step s = .next n → latchesConsistent n = true

/-- 10_state.md R51 (c): with consistent latches, whenever a stall fires the recorded `pc+1` of IFID is the pc. -/
def Obligations.StallFiresWithIfidInStep : Prop :=
  ∀ s : State, latchesConsistent s = true → stallHoldsIfid s = true

/-- 20_memory.md R80: every step keeps both memories in canonical form and inside their spaces. The canonical
form is the model's own (log entry 3). -/
def Obligations.StepKeepsTheMemoriesWellFormed : Prop :=
  ∀ s n : State, memoriesWf Config.default s = true → step s = .next n → memoriesWf Config.default n = true

/-- 10_state.md R41, R51, R67, 20_memory.md R80: the state after a reset with any image that fits has consistent
latches and memories in canonical form and inside their spaces. The canonical form is the model's own (log
entry 3, DESIGN CHOICE). -/
def Obligations.LoadedStatesAreConsistent : Prop :=
  ∀ (c : Config) (img : List Word) (s : State), loadImage c img = .next s →
    latchesConsistent s = true ∧ memoriesWf c s = true

/-- 10_state.md R41, R51, R67, 20_memory.md R80: `State.reset` has consistent latches and memories in canonical
form and inside their spaces. The canonical form is the model's own (log entry 3, DESIGN CHOICE). -/
def Obligations.ResetStateIsConsistent : Prop :=
  latchesConsistent State.reset = true ∧ memoriesWf Config.default State.reset = true

/-! The step and the instruction it runs -/

/-- 40_pipeline.md R140: the word that `withFetchWord` places at the pc is the word the next step fetches.
Placing one word is the model's own (log entry 2, DESIGN CHOICE): the spec's host loads a whole image on a
reset edge (R41, R62). -/
def Obligations.PlacedWordIsFetchedNext : Prop :=
  ∀ (s : State) (w : Word), Memory.wf s.imem = true → commits Config.default s = true → loadUse s = false →
    branchTaken s = false →
    ∃ n, step (s.withFetchWord 32 w.toNat) = .next n ∧ n.ifid.instr = w ∧ decodeTableWord 32 w.toNat = some (decode w)

/-- 70_reset_and_hazards.md R346, R347: from an empty pipeline, one step fetches the word at the pc, and the
sequential view of the state it leaves is that of `exec` of the decoded instruction. What the step adds
around it: the word goes to IFID, the counter counts the cycle, and the instruction's own writes to
registers and data memory follow in later cycles. R346 speaks of the final registers and data memory of a halted
run only: the tie of `step` to `exec` in one step, over `drain`, is the model's (log entry 1, DEDUCED), and the
view fixes the pc of an ended run and clears the counter (log entries 4 and 12, DESIGN CHOICE). -/
def Obligations.StepFromAnEmptyPipelineRunsTheInstruction : Prop :=
  ∀ s : State, s.status = .running → inRange 65536 s.pc = true → s.ifid = IfId.bubble → s.idex = IdEx.bubble →
    s.exmem = ExMem.bubble → s.memwb = MemWb.bubble → s.wbret = WbRet.bubble →
    ∃ n e, step s = .next n ∧ exec (decode (memRead s.imem s.pc.toNat)) (settle s) = .next e ∧
      drain n = settle e ∧ n.ifid.instr = memRead s.imem s.pc.toNat ∧ n.cycles = s.cycles + 1 ∧
      n.reg = s.reg ∧ n.dmem = s.dmem

/-- 70_reset_and_hazards.md R346, 40_pipeline.md R133, R151, R171: a step runs the decoded instruction. In
every state with consistent latches, a step that takes no fault either fetches a word on the executed path,
and then the sequential view of the next state is `exec` of that word's instruction on the sequential
view of this one; or it does not (a stall, a word behind a taken BEQ, a HALT or a faulting access),
and then the sequential view does not change. The rules give the cycle and the agreement of the final states
of a halted run: the tie of `step` to `exec` step by step, over `drain`, is the model's (log entry 1, DEDUCED),
and the view fixes the pc of an ended run and clears the counter (log entries 4 and 12, DESIGN CHOICE). -/
def Obligations.StepRunsTheFetchedInstruction : Prop :=
  ∀ s n : State, latchesConsistent s = true → s.status = .running → step s = .next n → notFaulted n = true →
    (fetchesOnPath s = true →
      ∃ e, exec (decode (memRead s.imem s.pc.toNat)) (drain s) = .next e ∧ drain n = settle e) ∧
    (fetchesOnPath s = false → drain n = drain s)

/-- 70_reset_and_hazards.md R346: a run from reset with any image that ends Halted leaves the registers and the
data memory that the sequential machine leaves when it runs the same image to its first HALT. -/
def Obligations.HaltedRunAgreesWithTheSequentialMachine : Prop :=
  ∀ (img : List Word) (s : State) (k : Nat), loadImage Config.default img = .next s →
    (runClock Config.default k s).status = .halted →
    ∃ j t, seqRun j s = .next t ∧ t.status = .halted ∧
      t.reg = (runClock Config.default k s).reg ∧ t.dmem = (runClock Config.default k s).dmem

/-- 70_reset_and_hazards.md R349: the cycle count of a run that ends Halted is `4 + I + S_eff + 3 * T`, with I
the instructions the sequential machine executes before the HALT. A stall between words behind the
HALT is not counted in S_eff (log entry 6). -/
def Obligations.CycleCountOfAHaltedRun : Prop :=
  ∀ (img : List Word) (s : State) (k : Nat), loadImage Config.default img = .next s →
    (runClock Config.default k s).status = .halted →
    ∃ j t u, seqRun j s = .next t ∧ t.status = .running ∧ seqStep t = .next u ∧ u.status = .halted ∧
      (runClock Config.default k s).cycles =
        4 + j + stallsIn Config.default k s + 3 * branchesIn Config.default k s

/-- 70_reset_and_hazards.md R347, 41_alu.md R200: an ADD fetched into an empty pipeline and followed by NOOPs
writes its register at the end of its fifth cycle and not before. -/
def Obligations.AddReachesItsRegisterInTheFifthCycle : Prop :=
  ∀ (s : State) (a b d : RegIdx) (x : BitVec 13), s.status = .running →
    s.ifid = IfId.bubble → s.idex = IdEx.bubble → s.exmem = ExMem.bubble → s.memwb = MemWb.bubble →
    s.wbret = WbRet.bubble → s.pc.toNat + 4 < 65536 →
    decode (memRead s.imem s.pc.toNat) = .add a b d x →
    (∀ i, 1 ≤ i → i < 5 → opcodeOf (memRead s.imem (s.pc.toNat + i)) = .noop) →
    (runClock Config.default 4 s).reg = s.reg ∧
    (runClock Config.default 5 s).readReg d = s.readReg a + s.readReg b ∧
    (∀ r, r ≠ d → (runClock Config.default 5 s).readReg r = s.readReg r)

/-- 70_reset_and_hazards.md R346, R347, 40_pipeline.md R133, R190: a word placed at the pc of a running block with
an empty pipeline, such as `State.reset`, is the instruction that runs. The very next step runs it in the
sequential view. In the block its effect on data memory and a jump are there after four steps; its register
write after five, unless a younger word's fault discards the fifth cycle; a HALT has ended the run after five,
and a data fault after four. Placing one word is the model's own (log entry 2, DESIGN CHOICE), as is the tie of
`step` to `exec` (log entry 1, DEDUCED) over a view that fixes the pc of an ended run and clears the counter (log
entries 4 and 12, DESIGN CHOICE). -/
def Obligations.PlacedInstructionTakesEffectInFiveSteps : Prop :=
  ∀ (s : State) (w : Word), Memory.wf s.imem = true → s.status = .running → s.pc.toNat + 4 < 65536 →
    s.ifid = IfId.bubble → s.idex = IdEx.bubble → s.exmem = ExMem.bubble → s.memwb = MemWb.bubble →
    s.wbret = WbRet.bubble →
    ∃ n e, step (s.withFetchWord 32 w.toNat) = .next n ∧
      exec (decode w) (settle (s.withFetchWord 32 w.toNat)) = .next e ∧ drain n = settle e ∧
      (e.status = .running →
        (runClock Config.default 4 (s.withFetchWord 32 w.toNat)).dmem = e.dmem ∧
        (redirects (decode w) s = true → (runClock Config.default 4 (s.withFetchWord 32 w.toNat)).pc = e.pc) ∧
        (commits Config.default (runClock Config.default 4 (s.withFetchWord 32 w.toNat)) = true →
          (runClock Config.default 5 (s.withFetchWord 32 w.toNat)).reg = e.reg)) ∧
      (e.status = .halted →
        (runClock Config.default 5 (s.withFetchWord 32 w.toNat)).status = .halted ∧
        (runClock Config.default 5 (s.withFetchWord 32 w.toNat)).reg = e.reg ∧
        (runClock Config.default 5 (s.withFetchWord 32 w.toNat)).dmem = e.dmem) ∧
      (∀ f j, e.status = .faulted f j →
        (runClock Config.default 4 (s.withFetchWord 32 w.toNat)).status = .faulted f (s.cycles + 4) ∧
        (runClock Config.default 4 (s.withFetchWord 32 w.toNat)).reg = e.reg ∧
        (runClock Config.default 4 (s.withFetchWord 32 w.toNat)).dmem = e.dmem)
end

