-- ==== Sys2Proof/Laws/Decode.lean ====
section
/-! SUPPORT. How the decoder's two answers, the fields the stages use and the instruction exec runs, agree on every word. -/

namespace Sys2Proof

/-- The instruction of a word has the opcode the stages read from it. -/
@[simp] theorem decode_op (w : Word) : (decode w).op = opcodeOf w := by
  unfold decode
  split <;> simp_all [Instr.op]

@[simp] theorem decodeFields_op (w : Word) : (decodeFields w).op = opcodeOf w := rfl
@[simp] theorem decodeFields_a (w : Word) : (decodeFields w).a = fieldA w := rfl
@[simp] theorem decodeFields_b (w : Word) : (decodeFields w).b = fieldB w := rfl
@[simp] theorem decodeFields_c (w : Word) : (decodeFields w).c = fieldC w := rfl
@[simp] theorem decodeFields_off (w : Word) : (decodeFields w).off = sext16 (fieldC w) := rfl

/-- The low three bits of field C are the low three bits of the word (30_encoding.md R102). -/
theorem fieldC_low (w : Word) : (fieldC w).extractLsb' 0 3 = w.extractLsb' 0 3 := by
  ext i hi
  simp [fieldC]

/-- What the decoder answers for each opcode of the word, in one place. -/
theorem decode_of_op (w : Word) :
    decode w = match opcodeOf w with
      | .add => .add (fieldA w) (fieldB w) ((fieldC w).extractLsb' 0 3) (w.extractLsb' 3 13)
      | .nor => .nor (fieldA w) (fieldB w) ((fieldC w).extractLsb' 0 3) (w.extractLsb' 3 13)
      | .load => .lw (fieldA w) (fieldB w) (fieldC w)
      | .store => .sw (fieldA w) (fieldB w) (fieldC w)
      | .beq => .beq (fieldA w) (fieldB w) (fieldC w)
      | .jalr => .jalr (fieldA w) (fieldB w) (fieldC w)
      | .halt => .halt (w.extractLsb' 0 22)
      | .noop => .noop (w.extractLsb' 0 22)
      | .inert => .inert (fieldX w) (w.extractLsb' 0 25) := by
  unfold decode
  cases opcodeOf w <;> simp only [fieldC_low]

/-- `NOOP_WORD` decodes as NOOP with no destination (30_encoding.md R105). -/
@[simp] theorem opcodeOf_noopWord : opcodeOf noopWord = .noop := by decide

/-- The 4-bit codes of two opcodes differ (10_state.md R43). -/
theorem Op.code_injective {p q : Op} (h : p.code = q.code) : p = q := by
  cases p <;> cases q <;> first | rfl | exact absurd h (by decide)

namespace Machine

/-- The wires of a destination field stand for it (10_state.md R43). -/
@[simp] theorem destOfWires_destWires (d : Dest) : destOfWires (destWires d) = d := by cases d <;> rfl

@[simp] theorem destWires_some (r : RegIdx) : destWires (some r) = { valid := 1#1, index := r } := rfl
@[simp] theorem destWires_none_valid : (destWires none).valid = 0#1 := rfl

@[simp] theorem destOf_noopWord : destOf (decodeFields noopWord) = none := by decide

/-- A word has a destination exactly when its opcode is in WRITERS (10_state.md R51). -/
theorem destOf_isSome (f : Fields) : (destOf f).isSome = isWriter f.op := by
  unfold destOf isWriter
  cases f.op <;> rfl

/-- The comparison of a destination field with an index as a proposition (00_scope.md R13). -/
theorem destIs_iff (d : Dest) (r : RegIdx) : destIs d r = true ↔ d = some r := by
  simp only [destIs, decide_eq_true_eq]

/-- WRITERS as a list (00_scope.md R14). -/
theorem isWriter_iff (op : Op) : isWriter op = true ↔ op ∈ [Op.add, .nor, .load] := by cases op <;> decide

/-- USERS as a list (00_scope.md R14). -/
theorem isUser_iff (op : Op) : isUser op = true ↔ op ∈ [Op.add, .nor, .beq, .store, .load] := by
  cases op <;> decide

/-- NONE equals no index (00_scope.md R13). -/
@[simp] theorem destIs_none (r : RegIdx) : destIs none r = false := by simp [destIs]

@[simp] theorem destIs_some (d r : RegIdx) : destIs (some d) r = decide (d = r) := by simp [destIs]

end Machine

end Sys2Proof
end

