-- ==== Sys2Proof/Laws/State.lean ====
section
/-! SUPPORT. What each single-field update of State leaves in each field, one lemma per field per update, and what each named operation over the state does to each field. -/

namespace Sys2Proof.Machine

section Updates
variable (s : State)

@[simp] theorem State.setPc_pc (v : Word) : (s.setPc v).pc = v := rfl
@[simp] theorem State.setPc_cycles (v : Word) : (s.setPc v).cycles = s.cycles := rfl
@[simp] theorem State.setPc_reg (v : Word) : (s.setPc v).reg = s.reg := rfl
@[simp] theorem State.setPc_imem (v : Word) : (s.setPc v).imem = s.imem := rfl
@[simp] theorem State.setPc_dmem (v : Word) : (s.setPc v).dmem = s.dmem := rfl
@[simp] theorem State.setPc_ifid (v : Word) : (s.setPc v).ifid = s.ifid := rfl
@[simp] theorem State.setPc_idex (v : Word) : (s.setPc v).idex = s.idex := rfl
@[simp] theorem State.setPc_exmem (v : Word) : (s.setPc v).exmem = s.exmem := rfl
@[simp] theorem State.setPc_memwb (v : Word) : (s.setPc v).memwb = s.memwb := rfl
@[simp] theorem State.setPc_wbret (v : Word) : (s.setPc v).wbret = s.wbret := rfl
@[simp] theorem State.setPc_status (v : Word) : (s.setPc v).status = s.status := rfl
@[simp] theorem State.setCycles_pc (v : Nat) : (s.setCycles v).pc = s.pc := rfl
@[simp] theorem State.setCycles_cycles (v : Nat) : (s.setCycles v).cycles = v := rfl
@[simp] theorem State.setCycles_reg (v : Nat) : (s.setCycles v).reg = s.reg := rfl
@[simp] theorem State.setCycles_imem (v : Nat) : (s.setCycles v).imem = s.imem := rfl
@[simp] theorem State.setCycles_dmem (v : Nat) : (s.setCycles v).dmem = s.dmem := rfl
@[simp] theorem State.setCycles_ifid (v : Nat) : (s.setCycles v).ifid = s.ifid := rfl
@[simp] theorem State.setCycles_idex (v : Nat) : (s.setCycles v).idex = s.idex := rfl
@[simp] theorem State.setCycles_exmem (v : Nat) : (s.setCycles v).exmem = s.exmem := rfl
@[simp] theorem State.setCycles_memwb (v : Nat) : (s.setCycles v).memwb = s.memwb := rfl
@[simp] theorem State.setCycles_wbret (v : Nat) : (s.setCycles v).wbret = s.wbret := rfl
@[simp] theorem State.setCycles_status (v : Nat) : (s.setCycles v).status = s.status := rfl
@[simp] theorem State.setReg_pc (v : Vector Word 8) : (s.setReg v).pc = s.pc := rfl
@[simp] theorem State.setReg_cycles (v : Vector Word 8) : (s.setReg v).cycles = s.cycles := rfl
@[simp] theorem State.setReg_reg (v : Vector Word 8) : (s.setReg v).reg = v := rfl
@[simp] theorem State.setReg_imem (v : Vector Word 8) : (s.setReg v).imem = s.imem := rfl
@[simp] theorem State.setReg_dmem (v : Vector Word 8) : (s.setReg v).dmem = s.dmem := rfl
@[simp] theorem State.setReg_ifid (v : Vector Word 8) : (s.setReg v).ifid = s.ifid := rfl
@[simp] theorem State.setReg_idex (v : Vector Word 8) : (s.setReg v).idex = s.idex := rfl
@[simp] theorem State.setReg_exmem (v : Vector Word 8) : (s.setReg v).exmem = s.exmem := rfl
@[simp] theorem State.setReg_memwb (v : Vector Word 8) : (s.setReg v).memwb = s.memwb := rfl
@[simp] theorem State.setReg_wbret (v : Vector Word 8) : (s.setReg v).wbret = s.wbret := rfl
@[simp] theorem State.setReg_status (v : Vector Word 8) : (s.setReg v).status = s.status := rfl
@[simp] theorem State.setImem_pc (v : Memory) : (s.setImem v).pc = s.pc := rfl
@[simp] theorem State.setImem_cycles (v : Memory) : (s.setImem v).cycles = s.cycles := rfl
@[simp] theorem State.setImem_reg (v : Memory) : (s.setImem v).reg = s.reg := rfl
@[simp] theorem State.setImem_imem (v : Memory) : (s.setImem v).imem = v := rfl
@[simp] theorem State.setImem_dmem (v : Memory) : (s.setImem v).dmem = s.dmem := rfl
@[simp] theorem State.setImem_ifid (v : Memory) : (s.setImem v).ifid = s.ifid := rfl
@[simp] theorem State.setImem_idex (v : Memory) : (s.setImem v).idex = s.idex := rfl
@[simp] theorem State.setImem_exmem (v : Memory) : (s.setImem v).exmem = s.exmem := rfl
@[simp] theorem State.setImem_memwb (v : Memory) : (s.setImem v).memwb = s.memwb := rfl
@[simp] theorem State.setImem_wbret (v : Memory) : (s.setImem v).wbret = s.wbret := rfl
@[simp] theorem State.setImem_status (v : Memory) : (s.setImem v).status = s.status := rfl
@[simp] theorem State.setDmem_pc (v : Memory) : (s.setDmem v).pc = s.pc := rfl
@[simp] theorem State.setDmem_cycles (v : Memory) : (s.setDmem v).cycles = s.cycles := rfl
@[simp] theorem State.setDmem_reg (v : Memory) : (s.setDmem v).reg = s.reg := rfl
@[simp] theorem State.setDmem_imem (v : Memory) : (s.setDmem v).imem = s.imem := rfl
@[simp] theorem State.setDmem_dmem (v : Memory) : (s.setDmem v).dmem = v := rfl
@[simp] theorem State.setDmem_ifid (v : Memory) : (s.setDmem v).ifid = s.ifid := rfl
@[simp] theorem State.setDmem_idex (v : Memory) : (s.setDmem v).idex = s.idex := rfl
@[simp] theorem State.setDmem_exmem (v : Memory) : (s.setDmem v).exmem = s.exmem := rfl
@[simp] theorem State.setDmem_memwb (v : Memory) : (s.setDmem v).memwb = s.memwb := rfl
@[simp] theorem State.setDmem_wbret (v : Memory) : (s.setDmem v).wbret = s.wbret := rfl
@[simp] theorem State.setDmem_status (v : Memory) : (s.setDmem v).status = s.status := rfl
@[simp] theorem State.setIfid_pc (v : IfId) : (s.setIfid v).pc = s.pc := rfl
@[simp] theorem State.setIfid_cycles (v : IfId) : (s.setIfid v).cycles = s.cycles := rfl
@[simp] theorem State.setIfid_reg (v : IfId) : (s.setIfid v).reg = s.reg := rfl
@[simp] theorem State.setIfid_imem (v : IfId) : (s.setIfid v).imem = s.imem := rfl
@[simp] theorem State.setIfid_dmem (v : IfId) : (s.setIfid v).dmem = s.dmem := rfl
@[simp] theorem State.setIfid_ifid (v : IfId) : (s.setIfid v).ifid = v := rfl
@[simp] theorem State.setIfid_idex (v : IfId) : (s.setIfid v).idex = s.idex := rfl
@[simp] theorem State.setIfid_exmem (v : IfId) : (s.setIfid v).exmem = s.exmem := rfl
@[simp] theorem State.setIfid_memwb (v : IfId) : (s.setIfid v).memwb = s.memwb := rfl
@[simp] theorem State.setIfid_wbret (v : IfId) : (s.setIfid v).wbret = s.wbret := rfl
@[simp] theorem State.setIfid_status (v : IfId) : (s.setIfid v).status = s.status := rfl
@[simp] theorem State.setIdex_pc (v : IdEx) : (s.setIdex v).pc = s.pc := rfl
@[simp] theorem State.setIdex_cycles (v : IdEx) : (s.setIdex v).cycles = s.cycles := rfl
@[simp] theorem State.setIdex_reg (v : IdEx) : (s.setIdex v).reg = s.reg := rfl
@[simp] theorem State.setIdex_imem (v : IdEx) : (s.setIdex v).imem = s.imem := rfl
@[simp] theorem State.setIdex_dmem (v : IdEx) : (s.setIdex v).dmem = s.dmem := rfl
@[simp] theorem State.setIdex_ifid (v : IdEx) : (s.setIdex v).ifid = s.ifid := rfl
@[simp] theorem State.setIdex_idex (v : IdEx) : (s.setIdex v).idex = v := rfl
@[simp] theorem State.setIdex_exmem (v : IdEx) : (s.setIdex v).exmem = s.exmem := rfl
@[simp] theorem State.setIdex_memwb (v : IdEx) : (s.setIdex v).memwb = s.memwb := rfl
@[simp] theorem State.setIdex_wbret (v : IdEx) : (s.setIdex v).wbret = s.wbret := rfl
@[simp] theorem State.setIdex_status (v : IdEx) : (s.setIdex v).status = s.status := rfl
@[simp] theorem State.setExmem_pc (v : ExMem) : (s.setExmem v).pc = s.pc := rfl
@[simp] theorem State.setExmem_cycles (v : ExMem) : (s.setExmem v).cycles = s.cycles := rfl
@[simp] theorem State.setExmem_reg (v : ExMem) : (s.setExmem v).reg = s.reg := rfl
@[simp] theorem State.setExmem_imem (v : ExMem) : (s.setExmem v).imem = s.imem := rfl
@[simp] theorem State.setExmem_dmem (v : ExMem) : (s.setExmem v).dmem = s.dmem := rfl
@[simp] theorem State.setExmem_ifid (v : ExMem) : (s.setExmem v).ifid = s.ifid := rfl
@[simp] theorem State.setExmem_idex (v : ExMem) : (s.setExmem v).idex = s.idex := rfl
@[simp] theorem State.setExmem_exmem (v : ExMem) : (s.setExmem v).exmem = v := rfl
@[simp] theorem State.setExmem_memwb (v : ExMem) : (s.setExmem v).memwb = s.memwb := rfl
@[simp] theorem State.setExmem_wbret (v : ExMem) : (s.setExmem v).wbret = s.wbret := rfl
@[simp] theorem State.setExmem_status (v : ExMem) : (s.setExmem v).status = s.status := rfl
@[simp] theorem State.setMemwb_pc (v : MemWb) : (s.setMemwb v).pc = s.pc := rfl
@[simp] theorem State.setMemwb_cycles (v : MemWb) : (s.setMemwb v).cycles = s.cycles := rfl
@[simp] theorem State.setMemwb_reg (v : MemWb) : (s.setMemwb v).reg = s.reg := rfl
@[simp] theorem State.setMemwb_imem (v : MemWb) : (s.setMemwb v).imem = s.imem := rfl
@[simp] theorem State.setMemwb_dmem (v : MemWb) : (s.setMemwb v).dmem = s.dmem := rfl
@[simp] theorem State.setMemwb_ifid (v : MemWb) : (s.setMemwb v).ifid = s.ifid := rfl
@[simp] theorem State.setMemwb_idex (v : MemWb) : (s.setMemwb v).idex = s.idex := rfl
@[simp] theorem State.setMemwb_exmem (v : MemWb) : (s.setMemwb v).exmem = s.exmem := rfl
@[simp] theorem State.setMemwb_memwb (v : MemWb) : (s.setMemwb v).memwb = v := rfl
@[simp] theorem State.setMemwb_wbret (v : MemWb) : (s.setMemwb v).wbret = s.wbret := rfl
@[simp] theorem State.setMemwb_status (v : MemWb) : (s.setMemwb v).status = s.status := rfl
@[simp] theorem State.setWbret_pc (v : WbRet) : (s.setWbret v).pc = s.pc := rfl
@[simp] theorem State.setWbret_cycles (v : WbRet) : (s.setWbret v).cycles = s.cycles := rfl
@[simp] theorem State.setWbret_reg (v : WbRet) : (s.setWbret v).reg = s.reg := rfl
@[simp] theorem State.setWbret_imem (v : WbRet) : (s.setWbret v).imem = s.imem := rfl
@[simp] theorem State.setWbret_dmem (v : WbRet) : (s.setWbret v).dmem = s.dmem := rfl
@[simp] theorem State.setWbret_ifid (v : WbRet) : (s.setWbret v).ifid = s.ifid := rfl
@[simp] theorem State.setWbret_idex (v : WbRet) : (s.setWbret v).idex = s.idex := rfl
@[simp] theorem State.setWbret_exmem (v : WbRet) : (s.setWbret v).exmem = s.exmem := rfl
@[simp] theorem State.setWbret_memwb (v : WbRet) : (s.setWbret v).memwb = s.memwb := rfl
@[simp] theorem State.setWbret_wbret (v : WbRet) : (s.setWbret v).wbret = v := rfl
@[simp] theorem State.setWbret_status (v : WbRet) : (s.setWbret v).status = s.status := rfl
@[simp] theorem State.setStatus_pc (v : Status) : (s.setStatus v).pc = s.pc := rfl
@[simp] theorem State.setStatus_cycles (v : Status) : (s.setStatus v).cycles = s.cycles := rfl
@[simp] theorem State.setStatus_reg (v : Status) : (s.setStatus v).reg = s.reg := rfl
@[simp] theorem State.setStatus_imem (v : Status) : (s.setStatus v).imem = s.imem := rfl
@[simp] theorem State.setStatus_dmem (v : Status) : (s.setStatus v).dmem = s.dmem := rfl
@[simp] theorem State.setStatus_ifid (v : Status) : (s.setStatus v).ifid = s.ifid := rfl
@[simp] theorem State.setStatus_idex (v : Status) : (s.setStatus v).idex = s.idex := rfl
@[simp] theorem State.setStatus_exmem (v : Status) : (s.setStatus v).exmem = s.exmem := rfl
@[simp] theorem State.setStatus_memwb (v : Status) : (s.setStatus v).memwb = s.memwb := rfl
@[simp] theorem State.setStatus_wbret (v : Status) : (s.setStatus v).wbret = s.wbret := rfl
@[simp] theorem State.setStatus_status (v : Status) : (s.setStatus v).status = v := rfl

end Updates

section Operations
variable (s : State)

@[simp] theorem State.writeReg_pc (r : RegIdx) (v : Word) : (s.writeReg r v).pc = s.pc := rfl
@[simp] theorem State.writeReg_cycles (r : RegIdx) (v : Word) : (s.writeReg r v).cycles = s.cycles := rfl
@[simp] theorem State.writeReg_reg (r : RegIdx) (v : Word) : (s.writeReg r v).reg = s.reg.set r.toNat v r.isLt := rfl
@[simp] theorem State.writeReg_imem (r : RegIdx) (v : Word) : (s.writeReg r v).imem = s.imem := rfl
@[simp] theorem State.writeReg_dmem (r : RegIdx) (v : Word) : (s.writeReg r v).dmem = s.dmem := rfl
@[simp] theorem State.writeReg_ifid (r : RegIdx) (v : Word) : (s.writeReg r v).ifid = s.ifid := rfl
@[simp] theorem State.writeReg_idex (r : RegIdx) (v : Word) : (s.writeReg r v).idex = s.idex := rfl
@[simp] theorem State.writeReg_exmem (r : RegIdx) (v : Word) : (s.writeReg r v).exmem = s.exmem := rfl
@[simp] theorem State.writeReg_memwb (r : RegIdx) (v : Word) : (s.writeReg r v).memwb = s.memwb := rfl
@[simp] theorem State.writeReg_wbret (r : RegIdx) (v : Word) : (s.writeReg r v).wbret = s.wbret := rfl
@[simp] theorem State.writeReg_status (r : RegIdx) (v : Word) : (s.writeReg r v).status = s.status := rfl
@[simp] theorem State.storeWord_pc (a v : Word) : (s.storeWord a v).pc = s.pc := rfl
@[simp] theorem State.storeWord_cycles (a v : Word) : (s.storeWord a v).cycles = s.cycles := rfl
@[simp] theorem State.storeWord_reg (a v : Word) : (s.storeWord a v).reg = s.reg := rfl
@[simp] theorem State.storeWord_imem (a v : Word) : (s.storeWord a v).imem = s.imem := rfl
@[simp] theorem State.storeWord_dmem (a v : Word) : (s.storeWord a v).dmem = memWrite s.dmem a.toNat v := rfl
@[simp] theorem State.storeWord_ifid (a v : Word) : (s.storeWord a v).ifid = s.ifid := rfl
@[simp] theorem State.storeWord_idex (a v : Word) : (s.storeWord a v).idex = s.idex := rfl
@[simp] theorem State.storeWord_exmem (a v : Word) : (s.storeWord a v).exmem = s.exmem := rfl
@[simp] theorem State.storeWord_memwb (a v : Word) : (s.storeWord a v).memwb = s.memwb := rfl
@[simp] theorem State.storeWord_wbret (a v : Word) : (s.storeWord a v).wbret = s.wbret := rfl
@[simp] theorem State.storeWord_status (a v : Word) : (s.storeWord a v).status = s.status := rfl
@[simp] theorem takeFault_pc (f : Fault) : (takeFault f s).pc = s.pc := rfl
@[simp] theorem takeFault_cycles (f : Fault) : (takeFault f s).cycles = s.cycles := rfl
@[simp] theorem takeFault_reg (f : Fault) : (takeFault f s).reg = s.reg := rfl
@[simp] theorem takeFault_imem (f : Fault) : (takeFault f s).imem = s.imem := rfl
@[simp] theorem takeFault_dmem (f : Fault) : (takeFault f s).dmem = s.dmem := rfl
@[simp] theorem takeFault_ifid (f : Fault) : (takeFault f s).ifid = s.ifid := rfl
@[simp] theorem takeFault_idex (f : Fault) : (takeFault f s).idex = s.idex := rfl
@[simp] theorem takeFault_exmem (f : Fault) : (takeFault f s).exmem = s.exmem := rfl
@[simp] theorem takeFault_memwb (f : Fault) : (takeFault f s).memwb = s.memwb := rfl
@[simp] theorem takeFault_wbret (f : Fault) : (takeFault f s).wbret = s.wbret := rfl
@[simp] theorem takeFault_status (f : Fault) : (takeFault f s).status = .faulted f (s.cycles + 1) := rfl
@[simp] theorem haltRun_pc : (haltRun s).pc = s.pc := rfl
@[simp] theorem haltRun_cycles : (haltRun s).cycles = s.cycles := rfl
@[simp] theorem haltRun_reg : (haltRun s).reg = s.reg := rfl
@[simp] theorem haltRun_imem : (haltRun s).imem = s.imem := rfl
@[simp] theorem haltRun_dmem : (haltRun s).dmem = s.dmem := rfl
@[simp] theorem haltRun_ifid : (haltRun s).ifid = s.ifid := rfl
@[simp] theorem haltRun_idex : (haltRun s).idex = s.idex := rfl
@[simp] theorem haltRun_exmem : (haltRun s).exmem = s.exmem := rfl
@[simp] theorem haltRun_memwb : (haltRun s).memwb = s.memwb := rfl
@[simp] theorem haltRun_wbret : (haltRun s).wbret = s.wbret := rfl
@[simp] theorem haltRun_status : (haltRun s).status = .halted := rfl
@[simp] theorem capRun_pc : (capRun s).pc = s.pc := rfl
@[simp] theorem capRun_cycles : (capRun s).cycles = s.cycles := rfl
@[simp] theorem capRun_reg : (capRun s).reg = s.reg := rfl
@[simp] theorem capRun_imem : (capRun s).imem = s.imem := rfl
@[simp] theorem capRun_dmem : (capRun s).dmem = s.dmem := rfl
@[simp] theorem capRun_ifid : (capRun s).ifid = s.ifid := rfl
@[simp] theorem capRun_idex : (capRun s).idex = s.idex := rfl
@[simp] theorem capRun_exmem : (capRun s).exmem = s.exmem := rfl
@[simp] theorem capRun_memwb : (capRun s).memwb = s.memwb := rfl
@[simp] theorem capRun_wbret : (capRun s).wbret = s.wbret := rfl
@[simp] theorem capRun_status : (capRun s).status = .capReached := rfl
@[simp] theorem placeAtPc_pc (w : Word) : (placeAtPc s w).pc = s.pc := rfl
@[simp] theorem placeAtPc_cycles (w : Word) : (placeAtPc s w).cycles = s.cycles := rfl
@[simp] theorem placeAtPc_reg (w : Word) : (placeAtPc s w).reg = s.reg := rfl
@[simp] theorem placeAtPc_imem (w : Word) : (placeAtPc s w).imem = memWrite s.imem s.pc.toNat w := rfl
@[simp] theorem placeAtPc_dmem (w : Word) : (placeAtPc s w).dmem = s.dmem := rfl
@[simp] theorem placeAtPc_ifid (w : Word) : (placeAtPc s w).ifid = s.ifid := rfl
@[simp] theorem placeAtPc_idex (w : Word) : (placeAtPc s w).idex = s.idex := rfl
@[simp] theorem placeAtPc_exmem (w : Word) : (placeAtPc s w).exmem = s.exmem := rfl
@[simp] theorem placeAtPc_memwb (w : Word) : (placeAtPc s w).memwb = s.memwb := rfl
@[simp] theorem placeAtPc_wbret (w : Word) : (placeAtPc s w).wbret = s.wbret := rfl
@[simp] theorem placeAtPc_status (w : Word) : (placeAtPc s w).status = s.status := rfl
@[simp] theorem State.writeDest_pc (d : Dest) (v : Word) : (s.writeDest d v).pc = s.pc := by cases d <;> rfl
@[simp] theorem State.writeDest_cycles (d : Dest) (v : Word) : (s.writeDest d v).cycles = s.cycles := by cases d <;> rfl
@[simp] theorem State.writeDest_imem (d : Dest) (v : Word) : (s.writeDest d v).imem = s.imem := by cases d <;> rfl
@[simp] theorem State.writeDest_dmem (d : Dest) (v : Word) : (s.writeDest d v).dmem = s.dmem := by cases d <;> rfl
@[simp] theorem State.writeDest_ifid (d : Dest) (v : Word) : (s.writeDest d v).ifid = s.ifid := by cases d <;> rfl
@[simp] theorem State.writeDest_idex (d : Dest) (v : Word) : (s.writeDest d v).idex = s.idex := by cases d <;> rfl
@[simp] theorem State.writeDest_exmem (d : Dest) (v : Word) : (s.writeDest d v).exmem = s.exmem := by cases d <;> rfl
@[simp] theorem State.writeDest_memwb (d : Dest) (v : Word) : (s.writeDest d v).memwb = s.memwb := by cases d <;> rfl
@[simp] theorem State.writeDest_wbret (d : Dest) (v : Word) : (s.writeDest d v).wbret = s.wbret := by cases d <;> rfl
@[simp] theorem State.writeDest_status (d : Dest) (v : Word) : (s.writeDest d v).status = s.status := by cases d <;> rfl

@[simp] theorem State.writeDest_none (v : Word) : s.writeDest none v = s := rfl

@[simp] theorem State.writeDest_some (r : RegIdx) (v : Word) : s.writeDest (some r) v = s.writeReg r v := rfl

end Operations

end Sys2Proof.Machine
end

