-- ==== Sys2Proof/Laws/Exec.lean ====
section
/-! SUPPORT. The state each meaning answers, in one equation per meaning, and the fields the shared advance of the pc leaves. -/

namespace Sys2Proof.Machine

section Advance
variable (s : State)

@[simp] theorem advance_pc : (advance s).pc = s.pc + 1#32 := rfl
@[simp] theorem advance_cycles : (advance s).cycles = s.cycles := rfl
@[simp] theorem advance_reg : (advance s).reg = s.reg := rfl
@[simp] theorem advance_imem : (advance s).imem = s.imem := rfl
@[simp] theorem advance_dmem : (advance s).dmem = s.dmem := rfl
@[simp] theorem advance_ifid : (advance s).ifid = s.ifid := rfl
@[simp] theorem advance_idex : (advance s).idex = s.idex := rfl
@[simp] theorem advance_exmem : (advance s).exmem = s.exmem := rfl
@[simp] theorem advance_memwb : (advance s).memwb = s.memwb := rfl
@[simp] theorem advance_wbret : (advance s).wbret = s.wbret := rfl
@[simp] theorem advance_status : (advance s).status = s.status := rfl

end Advance

/-- The state an instruction leaves, as one function: what the nine meanings do. -/
theorem exec_eq_next (i : Instr) (s : State) :
    exec i s = .next (match i with
      | .add a b d _ => advance (s.writeReg d (addResult (s.readReg a) (s.readReg b)))
      | .nor a b d _ => advance (s.writeReg d (norResult (s.readReg a) (s.readReg b)))
      | .lw a b c => loadWord Config.default a b c s
      | .sw a b c => storeReg Config.default a b c s
      | .beq a b c =>
        if eqFlag (s.readReg a) (s.readReg b) then s.setPc (branchTargetOf (s.pc + 1#32) (sext16 c)) else advance s
      | .jalr _ _ _ => advance s
      | .halt _ => haltRun (advance s)
      | .noop _ => advance s
      | .inert _ _ => advance s) := by
  cases i <;> first | rfl | (simp only [exec, execBeq]; split <;> rfl)

/-- All a LOAD can do: complete, or take the fault and change nothing else. -/
theorem loadWord_cases (c : Config) (a b : RegIdx) (k : BitVec 16) (s : State) :
    (inRange c.dmemWords (dataAddress a k s) = true ∧
      loadWord c a b k s = advance (s.writeReg b (s.dmemWord (dataAddress a k s)))) ∨
    (inRange c.dmemWords (dataAddress a k s) = false ∧
      loadWord c a b k s = takeFault (.dataAccessOutOfRange (dataAddress a k s)) s) := by
  cases h : inRange c.dmemWords (dataAddress a k s) <;> simp [loadWord, h]

/-- All a STORE can do: complete, or take the fault and change nothing else. -/
theorem storeReg_cases (c : Config) (a b : RegIdx) (k : BitVec 16) (s : State) :
    (inRange c.dmemWords (dataAddress a k s) = true ∧
      storeReg c a b k s = advance (s.storeWord (dataAddress a k s) (s.readReg b))) ∨
    (inRange c.dmemWords (dataAddress a k s) = false ∧
      storeReg c a b k s = takeFault (.dataAccessOutOfRange (dataAddress a k s)) s) := by
  cases h : inRange c.dmemWords (dataAddress a k s) <;> simp [storeReg, h]

/-- Every instruction has a next state from every state. -/
theorem exec_next (i : Instr) (s : State) : ∃ e, exec i s = .next e := ⟨_, exec_eq_next i s⟩

/-- An instruction leaves the counter, instruction memory and the latches: it can change the pc, a register,
data memory and the status only. -/
theorem exec_frame (i : Instr) (s e : State) (h : exec i s = .next e) :
    e = { s with pc := e.pc, reg := e.reg, dmem := e.dmem, status := e.status } := by
  rw [exec_eq_next] at h
  cases h
  cases i with
  | lw a b c => rcases loadWord_cases Config.default a b c s with ⟨_, q⟩ | ⟨_, q⟩ <;> simp only [q] <;> rfl
  | sw a b c => rcases storeReg_cases Config.default a b c s with ⟨_, q⟩ | ⟨_, q⟩ <;> simp only [q] <;> rfl
  | beq a b c => cases q : eqFlag (s.readReg a) (s.readReg b) <;> simp only [q] <;> rfl
  | _ => rfl

end Sys2Proof.Machine
end

