-- ==== Sys2Proof/Laws/Memory.lean ====
section
/-! SUPPORT. The laws of the word memories: read after write, what a loaded image reads as, and that every memory operation keeps the canonical form and the bounds. -/

namespace Sys2Proof.Machine

/-- Below the least index listed, a canonical memory reads 0. -/
theorem memRead_below {m : Memory} {lo a : Nat} (h : memCanonicalFrom lo m = true) (ha : a < lo) :
    memRead m a = 0#32 := by
  induction m generalizing lo with
  | nil => rfl
  | cons e m ih =>
    obtain ⟨k, v⟩ := e
    simp only [memCanonicalFrom, Bool.and_eq_true, decide_eq_true_eq] at h
    simp only [memRead, if_neg (show ¬a = k by omega)]
    exact ih h.2 (by omega)

theorem memCanonicalFrom_mono {m : Memory} {lo lo' : Nat} (h : memCanonicalFrom lo m = true) (hl : lo' ≤ lo) :
    memCanonicalFrom lo' m = true := by
  cases m with
  | nil => rfl
  | cons e m =>
    simp only [memCanonicalFrom, Bool.and_eq_true, decide_eq_true_eq] at h ⊢
    exact ⟨⟨by omega, h.1.2⟩, h.2⟩

/-- All a write can do to a read, from a canonical memory. -/
theorem memRead_memWrite_from {m : Memory} {lo : Nat} (h : memCanonicalFrom lo m = true) (a b : Nat) (v : Word) :
    memRead (memWrite m a v) b = if a = b then v else memRead m b := by
  induction m generalizing lo with
  | nil =>
    by_cases hv : v = 0#32 <;> by_cases hb : a = b <;> simp [memWrite, memRead, hv, hb, eq_comm]
  | cons e m ih =>
    obtain ⟨k, w⟩ := e
    have hc := h
    simp only [memCanonicalFrom, Bool.and_eq_true, decide_eq_true_eq] at h
    simp only [memWrite]
    by_cases h1 : a < k
    · have h0 : memRead ((k, w) :: m) a = 0#32 := by
        simp only [memRead, if_neg (show ¬a = k by omega)]
        exact memRead_below h.2 (by omega)
      simp only [if_pos h1]
      by_cases hb : a = b
      · subst hb
        by_cases hv : v = 0#32
        · simp [hv, h0]
        · simp [hv, memRead]
      · by_cases hv : v = 0#32
        · simp [hv, hb]
        · simp [hv, hb, memRead, Ne.symm hb]
    · simp only [if_neg h1]
      by_cases h2 : a = k
      · subst h2
        have h0 : memRead m a = 0#32 := memRead_below h.2 (by omega)
        by_cases hb : a = b
        · subst hb
          by_cases hv : v = 0#32
          · simp [hv, h0]
          · simp [hv, memRead]
        · by_cases hv : v = 0#32
          · simp [hv, hb, memRead, Ne.symm hb]
          · simp [hv, hb, memRead, Ne.symm hb]
      · simp only [if_neg h2, memRead]
        by_cases hb : b = k
        · subst hb
          simp [h2]
        · simp only [if_neg hb]
          exact ih h.2

/-- All a write can do to a read: the word at its index, and no other (20_memory.md R84). -/
theorem memRead_memWrite {m : Memory} (h : Memory.wf m = true) (a b : Nat) (v : Word) :
    memRead (memWrite m a v) b = if a = b then v else memRead m b :=
  memRead_memWrite_from h a b v

theorem memCanonicalFrom_memWrite {m : Memory} {lo : Nat} (h : memCanonicalFrom lo m = true) {a : Nat}
    (ha : lo ≤ a) (v : Word) : memCanonicalFrom lo (memWrite m a v) = true := by
  induction m generalizing lo with
  | nil =>
    by_cases hv : v = 0#32 <;> simp [memWrite, memCanonicalFrom, hv, ha]
  | cons e m ih =>
    obtain ⟨k, w⟩ := e
    have hc := h
    simp only [memCanonicalFrom, Bool.and_eq_true, decide_eq_true_eq] at h
    simp only [memWrite]
    split
    · split
      · exact hc
      · simp only [memCanonicalFrom, Bool.and_eq_true, decide_eq_true_eq]
        exact ⟨⟨ha, by assumption⟩, ⟨⟨by omega, h.1.2⟩, h.2⟩⟩
    · split
      · split
        · exact memCanonicalFrom_mono h.2 (by omega)
        · simp only [memCanonicalFrom, Bool.and_eq_true, decide_eq_true_eq]
          exact ⟨⟨ha, by assumption⟩, by subst_vars; exact h.2⟩
      · simp only [memCanonicalFrom, Bool.and_eq_true, decide_eq_true_eq]
        exact ⟨h.1, ih h.2 (by omega)⟩

/-- A write keeps the canonical form. -/
theorem memWrite_wf {m : Memory} (h : Memory.wf m = true) (a : Nat) (v : Word) :
    Memory.wf (memWrite m a v) = true :=
  memCanonicalFrom_memWrite h (Nat.zero_le a) v

/-- A write inside the space lists nothing outside it. -/
theorem memWrite_within {m : Memory} {size : Nat} (h : Memory.within size m = true) {a : Nat} (ha : a < size)
    (v : Word) : Memory.within size (memWrite m a v) = true := by
  induction m with
  | nil =>
    by_cases hv : v = 0#32 <;> simp [memWrite, Memory.within, hv, ha]
  | cons e m ih =>
    obtain ⟨k, w⟩ := e
    simp only [Memory.within, List.all_cons, Bool.and_eq_true, decide_eq_true_eq] at h ih ⊢
    simp only [memWrite]
    split
    · split
      · simp [h.1, h.2]
      · simp [h.1, h.2, ha]
    · split
      · split
        · simp [h.2]
        · simp [h.2, ha]
      · simp [h.1, ih h.2]

theorem memOfWordsFrom_canonical (ws : List Word) {n lo : Nat} (h : lo ≤ n) :
    memCanonicalFrom lo (memOfWordsFrom n ws) = true := by
  induction ws generalizing n lo with
  | nil => rfl
  | cons w ws ih =>
    simp only [memOfWordsFrom]
    split
    · exact ih (by omega)
    · simp only [memCanonicalFrom, Bool.and_eq_true, decide_eq_true_eq]
      exact ⟨⟨h, by assumption⟩, ih (Nat.le_refl _)⟩

/-- A loaded image is in canonical form. -/
theorem memOfImage_wf (img : List Word) : Memory.wf (memOfImage img) = true :=
  memOfWordsFrom_canonical img (Nat.le_refl 0)

theorem memOfWordsFrom_within (ws : List Word) {n size : Nat} (h : n + ws.length ≤ size) :
    Memory.within size (memOfWordsFrom n ws) = true := by
  induction ws generalizing n with
  | nil => rfl
  | cons w ws ih =>
    simp only [List.length_cons] at h
    have ht := ih (n := n + 1) (by omega)
    simp only [memOfWordsFrom]
    split
    · exact ht
    · simp only [Memory.within, List.all_cons, Bool.and_eq_true, decide_eq_true_eq] at ht ⊢
      exact ⟨by omega, ht⟩

/-- A loaded image that fits lists nothing outside the space (10_state.md R41). -/
theorem memOfImage_within {img : List Word} {size : Nat} (h : img.length ≤ size) :
    Memory.within size (memOfImage img) = true :=
  memOfWordsFrom_within img (by omega)

theorem memRead_memOfWordsFrom (ws : List Word) (n i : Nat) :
    memRead (memOfWordsFrom n ws) (n + i) = ws.getD i 0#32 := by
  induction ws generalizing n i with
  | nil => simp [memOfWordsFrom, memRead]
  | cons w ws ih =>
    cases i with
    | zero =>
      simp only [memOfWordsFrom]
      split
      · have := memRead_below (memOfWordsFrom_canonical ws (Nat.le_refl (n + 1))) (show n + 0 < n + 1 by omega)
        simp_all
      · simp [memRead]
    | succ i =>
      have := ih (n + 1) i
      rw [show n + 1 + i = n + (i + 1) by omega] at this
      simp only [memOfWordsFrom]
      split
      · simpa using this
      · simpa [memRead] using this

/-- Two canonical memories that read the same at every index are equal. -/
theorem Memory.ext_from {m m' : Memory} {lo : Nat} (h : memCanonicalFrom lo m = true)
    (h' : memCanonicalFrom lo m' = true) (e : ∀ a, memRead m a = memRead m' a) : m = m' := by
  induction m generalizing m' lo with
  | nil =>
    cases m' with
    | nil => rfl
    | cons x m' =>
      simp only [memCanonicalFrom, Bool.and_eq_true, decide_eq_true_eq] at h'
      have := e x.1
      simp [memRead] at this
      exact absurd this.symm h'.1.2
  | cons x m ih =>
    simp only [memCanonicalFrom, Bool.and_eq_true, decide_eq_true_eq] at h
    cases m' with
    | nil =>
      have := e x.1
      simp [memRead] at this
      exact absurd this h.1.2
    | cons y m' =>
      obtain ⟨k, v⟩ := x
      obtain ⟨k', v'⟩ := y
      simp only [memCanonicalFrom, Bool.and_eq_true, decide_eq_true_eq] at h h'
      have hk : k = k' := by
        rcases Nat.lt_trichotomy k k' with hlt | heq | hgt
        · have := e k
          rw [show memRead ((k, v) :: m) k = v by simp [memRead]] at this
          simp only [memRead, if_neg (show ¬k = k' by omega)] at this
          rw [memRead_below h'.2 (by omega)] at this
          exact absurd this h.1.2
        · exact heq
        · have := e k'
          rw [show memRead ((k', v') :: m') k' = v' by simp [memRead]] at this
          simp only [memRead, if_neg (show ¬k' = k by omega)] at this
          rw [memRead_below h.2 (by omega)] at this
          exact absurd this.symm h'.1.2
      subst hk
      have hv : v = v' := by simpa [memRead] using e k
      subst hv
      have hm : m = m' := by
        apply ih h.2 h'.2
        intro a
        by_cases ha : a = k
        · subst ha
          rw [memRead_below h.2 (by omega), memRead_below h'.2 (by omega)]
        · simpa [memRead, ha] using e a
      rw [hm]

/-- Equal reads make canonical memories equal data. -/
theorem Memory.ext {m m' : Memory} (h : Memory.wf m = true) (h' : Memory.wf m' = true)
    (e : ∀ a, memRead m a = memRead m' a) : m = m' := Memory.ext_from h h' e

/-- The range check as a proposition (20_memory.md R86). -/
theorem inRange_iff (size : Nat) (a : Word) :
    inRange size a = true ↔ 0 ≤ a.toInt ∧ a.toInt < (size : Int) := by
  simp only [inRange, decide_eq_true_eq]

theorem inRange_eq_false_iff (size : Nat) (a : Word) :
    inRange size a = false ↔ a.toInt < 0 ∨ (size : Int) ≤ a.toInt := by
  rw [← Bool.not_eq_true, inRange_iff]
  omega

/-- An index that passes the signed range check lies in the space. -/
theorem toNat_lt_of_inRange {size : Nat} {a : Word} (h : inRange size a = true) : a.toNat < size := by
  simp only [inRange, decide_eq_true_eq] at h
  have := BitVec.toInt_eq_toNat_cond a
  split at this <;> omega

end Sys2Proof.Machine
end

