-- ==== Sys2Proof/Laws/PerInstr.lean ====
section
/-! SUPPORT. The per-instruction family EncodesItsOpcode: the word of a well-formed instruction carries its opcode, so that the latches hold the right value of Op. -/

namespace Sys2Proof

/-- Reading a field that lies in the upper part of a joined word. -/
theorem extractLsb'_append_upper {m n k : Nat} (x : BitVec m) (y : BitVec n) (start : Nat) :
    (x ++ y).extractLsb' (n + start) k = x.extractLsb' start k := by
  ext i hi
  simp only [BitVec.getElem_extractLsb', BitVec.getLsbD_append]
  rw [if_neg (by omega)]
  congr 1
  omega

/-- Reading a field that lies in the lower part of a joined word. -/
theorem extractLsb'_append_lower {m n k : Nat} (x : BitVec m) (y : BitVec n) (start : Nat) (h : start + k ≤ n) :
    (x ++ y).extractLsb' start k = y.extractLsb' start k := by
  ext i hi
  simp only [BitVec.getElem_extractLsb', BitVec.getLsbD_append]
  rw [if_pos (by omega)]

/-- A field read at its full width. -/
theorem extractLsb'_all {m : Nat} (x : BitVec m) : x.extractLsb' 0 m = x := by
  ext i hi
  simp

/-- The opcode of a word whose bits 31:25 and 24:22 are `ext` and `op`. -/
theorem opcodeOf_append (ext : BitVec 7) (op : BitVec 3) (x : BitVec 22) :
    opcodeOf (ext ++ op ++ x) = if ext = 0#7 then opcodeTable[op.toNat]'op.isLt else .inert := by
  have hx : fieldX (ext ++ op ++ x) = ext :=
    (extractLsb'_append_upper (k := 7) (ext ++ op) x 3).trans
      ((extractLsb'_append_upper (k := 7) ext op 0).trans (extractLsb'_all ext))
  have ho : fieldOp (ext ++ op ++ x) = op :=
    (extractLsb'_append_upper (k := 3) (ext ++ op) x 0).trans
      ((extractLsb'_append_lower (k := 3) ext op 0 (by omega)).trans (extractLsb'_all op))
  rw [opcodeOf, hx]
  simp only [ho]

/-- A packed word has the opcode its three bits select (30_encoding.md R100, R104). -/
theorem opcodeOf_packFields (op a b : BitVec 3) (c : BitVec 16) :
    opcodeOf (packFields op a b c) = opcodeTable[op.toNat]'op.isLt :=
  opcodeOf_append 0#7 op (a ++ b ++ c)

namespace Laws.EncodesItsOpcode

/-- The opcode the decoder reads from a well-formed instruction's word is the instruction's. -/
def Statement (i : Instr) : Prop := i.wf = true → opcodeOf (encode i) = i.op

theorem add (a b d : RegIdx) (x : BitVec 13) : Statement (.add a b d x) := fun _ => opcodeOf_packFields ..

theorem nor (a b d : RegIdx) (x : BitVec 13) : Statement (.nor a b d x) := fun _ => opcodeOf_packFields ..

theorem lw (a b : RegIdx) (c : BitVec 16) : Statement (.lw a b c) := fun _ => opcodeOf_packFields ..

theorem sw (a b : RegIdx) (c : BitVec 16) : Statement (.sw a b c) := fun _ => opcodeOf_packFields ..

theorem beq (a b : RegIdx) (c : BitVec 16) : Statement (.beq a b c) := fun _ => opcodeOf_packFields ..

theorem jalr (a b : RegIdx) (x : BitVec 16) : Statement (.jalr a b x) := fun _ => opcodeOf_packFields ..

theorem halt (x : BitVec 22) : Statement (.halt x) := fun _ => opcodeOf_append 0#7 6#3 x

theorem noop (x : BitVec 22) : Statement (.noop x) := fun _ => opcodeOf_append 0#7 7#3 x

theorem inert (ext : BitVec 7) (x : BitVec 25) : Statement (.inert ext x) := by
  intro h
  have hx : fieldX (encode (.inert ext x)) = ext :=
    (extractLsb'_append_upper (k := 7) ext x 0).trans (extractLsb'_all ext)
  simp only [Instr.wf, bne_iff_ne, ne_eq] at h
  rw [opcodeOf, hx, if_neg h]
  rfl

end Laws.EncodesItsOpcode

end Sys2Proof
end

