-- ==== Sys2Proof/Laws/Pipeline.lean ====
section
/-! SUPPORT. Everything a cycle and a clock edge can do, once: the next state field by field, the fault of a cycle, and the cases of a step. -/

namespace Sys2Proof.Machine

/-- The next state of a cycle, field by field, with the precedence of 00_scope.md R12 worked out. -/
theorem nextState_eq (s : State) :
    nextState s =
      { pc := if branchTaken s then s.exmem.branchTarget
          else if loadUse s then s.pc + 1#32 - 1#32 else s.pc + 1#32
        cycles := s.cycles + 1
        reg := if isWriter s.memwb.opcode then (s.writeDest s.memwb.dest s.memwb.writeData).reg else s.reg
        imem := s.imem
        dmem := if s.exmem.opcode = .store then memWrite s.dmem s.exmem.aluResult.toNat s.exmem.readRegB
          else s.dmem
        ifid := if branchTaken s then IfId.bubble
          else if loadUse s then { instr := s.ifid.instr, pcPlus1 := s.pc + 1#32 - 1#32 }
          else { instr := s.imemWord s.pc, pcPlus1 := s.pc + 1#32 }
        idex := if branchTaken s then IdEx.bubble else if loadUse s then IdEx.bubble else decodedLatch s
        exmem := if branchTaken s then ExMem.bubble else executedLatch s
        memwb := accessedLatch s
        wbret := retiredLatch s
        status := s.status } := by
  cases hb : branchTaken s <;> cases hl : loadUse s <;> cases hw : isWriter s.memwb.opcode <;>
    by_cases hs : s.exmem.opcode = .store <;> cases hd : s.memwb.dest <;>
    simp [nextState, writebackStage, memoryStage, flushStage, storeStage, executeStage, hazardStage, decodeStage,
      fetchStage, hb, hl, hw, hs, hd] <;> rfl

section Fields
variable (s : State)

theorem nextState_pc : (nextState s).pc = if branchTaken s then s.exmem.branchTarget
    else if loadUse s then s.pc + 1#32 - 1#32 else s.pc + 1#32 := by rw [nextState_eq]
@[simp] theorem nextState_cycles : (nextState s).cycles = s.cycles + 1 := by rw [nextState_eq]
theorem nextState_reg : (nextState s).reg =
    if isWriter s.memwb.opcode then (s.writeDest s.memwb.dest s.memwb.writeData).reg else s.reg := by
  rw [nextState_eq]
@[simp] theorem nextState_imem : (nextState s).imem = s.imem := by rw [nextState_eq]
theorem nextState_dmem : (nextState s).dmem =
    if s.exmem.opcode = .store then memWrite s.dmem s.exmem.aluResult.toNat s.exmem.readRegB else s.dmem := by
  rw [nextState_eq]
theorem nextState_ifid : (nextState s).ifid = if branchTaken s then IfId.bubble
    else if loadUse s then { instr := s.ifid.instr, pcPlus1 := s.pc + 1#32 - 1#32 }
    else { instr := s.imemWord s.pc, pcPlus1 := s.pc + 1#32 } := by rw [nextState_eq]
theorem nextState_idex : (nextState s).idex =
    if branchTaken s then IdEx.bubble else if loadUse s then IdEx.bubble else decodedLatch s := by
  rw [nextState_eq]
theorem nextState_exmem : (nextState s).exmem = if branchTaken s then ExMem.bubble else executedLatch s := by
  rw [nextState_eq]
@[simp] theorem nextState_memwb : (nextState s).memwb = accessedLatch s := by rw [nextState_eq]
@[simp] theorem nextState_wbret : (nextState s).wbret = retiredLatch s := by rw [nextState_eq]
@[simp] theorem nextState_status : (nextState s).status = s.status := by rw [nextState_eq]

end Fields

/-- All a committed or faulting cycle can do. -/
theorem cycle_cases (c : Config) (s : State) :
    (∃ f, cycleFault c s = some f ∧ cycle c s = .fault f) ∨
    (cycleFault c s = none ∧ cycle c s = .next (nextState s)) := by
  cases h : cycleFault c s <;> simp [cycle, h]

/-- The fault of a cycle: the Memory stage's, else Fetch's (60_exceptions.md R302). -/
theorem cycleFault_cases (c : Config) (s : State) :
    (accessesData s.exmem.opcode = true ∧ inRange c.dmemWords s.exmem.aluResult = false ∧
      cycleFault c s = some (.dataAccessOutOfRange s.exmem.aluResult)) ∨
    ((accessesData s.exmem.opcode = false ∨ inRange c.dmemWords s.exmem.aluResult = true) ∧
      inRange c.imemWords s.pc = false ∧ cycleFault c s = some (.instructionFetchOutOfRange s.pc)) ∨
    ((accessesData s.exmem.opcode = false ∨ inRange c.dmemWords s.exmem.aluResult = true) ∧
      inRange c.imemWords s.pc = true ∧ cycleFault c s = none) := by
  cases h1 : accessesData s.exmem.opcode <;> cases h2 : inRange c.dmemWords s.exmem.aluResult <;>
    cases h3 : inRange c.imemWords s.pc <;> simp [cycleFault, memoryFault, fetchFault, h1, h2, h3]

/-- Everything a clock edge without reset can do, in the order of 60_exceptions.md R306. -/
theorem advanceClock_cases (c : Config) (s : State) :
    (s.status ≠ .running ∧ advanceClock c s = s) ∨
    (s.status = .running ∧ s.memwb.opcode = .halt ∧ c.haltExtraCycle = false ∧ advanceClock c s = haltRun s) ∨
    (s.status = .running ∧ s.memwb.opcode = .halt ∧ c.haltExtraCycle = true ∧
      advanceClock c s = haltAfterCycle c s) ∨
    (s.status = .running ∧ s.memwb.opcode ≠ .halt ∧ capReachedAt c s = true ∧ advanceClock c s = capRun s) ∨
    (s.status = .running ∧ s.memwb.opcode ≠ .halt ∧ capReachedAt c s = false ∧
      (∃ f, cycleFault c s = some f ∧ advanceClock c s = takeFault f s)) ∨
    (s.status = .running ∧ s.memwb.opcode ≠ .halt ∧ capReachedAt c s = false ∧ cycleFault c s = none ∧
      advanceClock c s = nextState s) := by
  by_cases h1 : s.status = .running <;> by_cases h2 : s.memwb.opcode = .halt <;>
    cases h3 : c.haltExtraCycle <;> cases h4 : capReachedAt c s <;> cases h5 : cycleFault c s <;>
    simp [advanceClock, commitCycle, cycle, h1, h2, h3, h4, h5]

/-- A step always has a next state: the clock edge's. -/
theorem step_eq (s : State) : step s = .next (advanceClock Config.default s) := rfl

/-- The default configuration has no cap (00_scope.md R8). -/
@[simp] theorem capReachedAt_default (s : State) : capReachedAt Config.default s = false := rfl

@[simp] theorem haltExtraCycle_default : Config.default.haltExtraCycle = false := rfl

end Sys2Proof.Machine
end

