-- ==== Sys2Proof/Laws/Registers.lean ====
section
/-! SUPPORT. What reading a general register gives after each operation over the state. -/

namespace Sys2Proof.Machine

/-- All a register write can do to a register read. -/
theorem State.readReg_writeReg (s : State) (r q : RegIdx) (v : Word) :
    (s.writeReg r v).readReg q = if r = q then v else s.readReg q := by
  simp only [State.readReg, State.writeReg_reg, Vector.getElem_set]
  by_cases h : r = q
  · simp [h]
  · rw [if_neg (fun e => h (BitVec.eq_of_toNat_eq e)), if_neg h]

@[simp] theorem State.readReg_writeReg_same (s : State) (r : RegIdx) (v : Word) :
    (s.writeReg r v).readReg r = v := by simp [State.readReg_writeReg]

theorem State.readReg_writeReg_other (s : State) {r q : RegIdx} (v : Word) (h : r ≠ q) :
    (s.writeReg r v).readReg q = s.readReg q := by simp [State.readReg_writeReg, h]

/-- All a write to a destination field can do to a register read; NONE writes nothing. -/
theorem State.readReg_writeDest (s : State) (d : Dest) (q : RegIdx) (v : Word) :
    (s.writeDest d v).readReg q = if destIs d q then v else s.readReg q := by
  cases d with
  | none => simp [destIs]
  | some r => simp [destIs, State.readReg_writeReg]

/-- A register read sees the register file only. -/
theorem State.readReg_congr {s t : State} (h : s.reg = t.reg) (r : RegIdx) : s.readReg r = t.readReg r := by
  simp [State.readReg, h]

/-- Two register files that read the same everywhere are equal. -/
theorem State.reg_ext {s t : State} (h : ∀ r, s.readReg r = t.readReg r) : s.reg = t.reg := by
  apply Vector.ext
  intro i hi
  have := h (BitVec.ofNat 3 i)
  simpa [State.readReg, Nat.mod_eq_of_lt hi] using this

end Sys2Proof.Machine
end

