-- ==== Sys2Proof/Laws/Safety.lean ====
section
/-! SUPPORT. The latch invariants as propositions, one field each, and that they depend on the latches, the registers and the pc only. -/

namespace Sys2Proof.Machine

/-- The latch invariants of `latchesConsistent` (10_state.md R51), each as a proposition. -/
structure LatchFacts (s : State) : Prop where
  idexOpcode : s.idex.opcode = opcodeOf s.idex.instr
  exmemOpcode : s.exmem.opcode = opcodeOf s.exmem.instr
  memwbOpcode : s.memwb.opcode = opcodeOf s.memwb.instr
  idexDest : s.idex.dest = destOf (decodeFields s.idex.instr)
  exmemDest : s.exmem.dest = destOf (decodeFields s.exmem.instr)
  memwbDest : s.memwb.dest = destOf (decodeFields s.memwb.instr)
  wbretDest : s.wbret.dest = destOf (decodeFields s.wbret.instr)
  loadInStep : s.idex.opcode = .load → s.ifid.pcPlus1 = s.pc
  offsetIs : s.idex.offset = sext16 (fieldC s.idex.instr)
  retiredHeld : ∀ r, s.wbret.dest = some r → s.readReg r = s.wbret.writeData
  currentA : isUser s.idex.opcode = true →
    s.idex.readRegA = s.readReg (fieldA s.idex.instr) ∨ s.wbret.dest = some (fieldA s.idex.instr)
  currentB : isUser s.idex.opcode = true →
    s.idex.readRegB = s.readReg (fieldB s.idex.instr) ∨ s.wbret.dest = some (fieldB s.idex.instr)
  separateA : s.exmem.opcode = .load → isUser s.idex.opcode = true →
    s.exmem.dest ≠ some (fieldA s.idex.instr)
  separateB : s.exmem.opcode = .load → isUser s.idex.opcode = true → s.idex.opcode ≠ .load →
    s.exmem.dest ≠ some (fieldB s.idex.instr)

theorem retiredValueHeld_iff (s : State) :
    retiredValueHeld s = true ↔ ∀ r, s.wbret.dest = some r → s.readReg r = s.wbret.writeData := by
  unfold retiredValueHeld
  cases h : s.wbret.dest <;> simp

/-- The check and the propositions say the same. -/
theorem latchesConsistent_iff (s : State) : latchesConsistent s = true ↔ LatchFacts s := by
  simp only [latchesConsistent, Bool.and_eq_true, retiredValueHeld_iff, opcodesDecoded, destsDecoded,
    loadFollowsFetch, offsetDecoded, operandsCurrent, loadUseSeparated, readIsCurrent, Bool.or_eq_true,
    Bool.not_eq_true', decide_eq_true_eq, decide_eq_false_iff_not, destIs]
  simp only [decodeFields_a, decodeFields_b, decodeFields_off]
  constructor
  · rintro ⟨⟨⟨⟨⟨⟨⟨⟨a, b⟩, c⟩, ⟨⟨d, e⟩, f⟩, g⟩, h⟩, i⟩, j⟩, k⟩, l⟩
    refine ⟨a, b, c, d, e, f, g, fun x => h.resolve_left (fun y => y x), i, j, ?_, ?_, ?_, ?_⟩
    · intro x
      rw [x] at k
      simpa using (k.resolve_left (by simp)).1
    · intro x
      rw [x] at k
      simpa using (k.resolve_left (by simp)).2
    · intro x y
      rw [y] at l
      rcases l with (l | l) | l
      · exact absurd x l
      · cases l
      · exact l.1
    · intro x y z
      rw [y] at l
      rcases l with (l | l) | l
      · exact absurd x l
      · cases l
      · exact l.2.resolve_left z
  · intro h
    refine ⟨⟨⟨⟨⟨⟨⟨⟨h.idexOpcode, h.exmemOpcode⟩, h.memwbOpcode⟩, ⟨⟨h.idexDest, h.exmemDest⟩, h.memwbDest⟩,
      h.wbretDest⟩, ?_⟩, h.offsetIs⟩, h.retiredHeld⟩, ?_⟩, ?_⟩
    · by_cases x : s.idex.opcode = .load
      · exact Or.inr (h.loadInStep x)
      · exact Or.inl x
    · cases x : isUser s.idex.opcode
      · exact Or.inl rfl
      · exact Or.inr ⟨h.currentA x, h.currentB x⟩
    · by_cases x : s.exmem.opcode = .load
      · cases y : isUser s.idex.opcode
        · exact Or.inl (Or.inr rfl)
        · refine Or.inr ⟨h.separateA x y, ?_⟩
          by_cases z : s.idex.opcode = .load
          · exact Or.inl z
          · exact Or.inr (h.separateB x y z)
      · exact Or.inl (Or.inl x)

/-- A destination field that is an index belongs to a writer. -/
theorem LatchFacts.writer_of_memwbDest {s : State} (h : LatchFacts s) {r : RegIdx} (hr : s.memwb.dest = some r) :
    isWriter s.memwb.opcode = true := by
  have hd := destOf_isSome (decodeFields s.memwb.instr)
  rw [← h.memwbDest, hr] at hd
  rw [h.memwbOpcode]
  exact hd.symm

/-- The same of EXMEM. -/
theorem LatchFacts.writer_of_exmemDest {s : State} (h : LatchFacts s) {r : RegIdx} (hr : s.exmem.dest = some r) :
    isWriter s.exmem.opcode = true := by
  have hd := destOf_isSome (decodeFields s.exmem.instr)
  rw [← h.exmemDest, hr] at hd
  rw [h.exmemOpcode]
  exact hd.symm

/-- The latch invariants see the latches, the registers and the pc only. -/
theorem LatchFacts.congr {s t : State} (h : LatchFacts s) (h1 : t.ifid = s.ifid) (h2 : t.idex = s.idex)
    (h3 : t.exmem = s.exmem) (h4 : t.memwb = s.memwb) (h5 : t.wbret = s.wbret) (h6 : t.reg = s.reg)
    (h7 : t.pc = s.pc) : LatchFacts t := by
  have hr : ∀ r, t.readReg r = s.readReg r := fun r => State.readReg_congr h6 r
  obtain ⟨a, b, c, d, e, f, g, i, j, k, l, m, n, o⟩ := h
  constructor <;> simp only [h1, h2, h3, h4, h5, h7, hr] <;> assumption

end Sys2Proof.Machine
end

