-- ==== Sys2Proof/Laws/Sequential.lean ====
section
/-! SUPPORT. The sequential view: what settle leaves in each field, all that finishing one latch can do, and how finishing it relates to a committed cycle. -/

namespace Sys2Proof.Machine

section Settle
variable (s : State)

@[simp] theorem settle_cycles : (settle s).cycles = 0 := rfl
@[simp] theorem settle_reg : (settle s).reg = s.reg := rfl
@[simp] theorem settle_imem : (settle s).imem = s.imem := rfl
@[simp] theorem settle_dmem : (settle s).dmem = s.dmem := rfl
@[simp] theorem settle_ifid : (settle s).ifid = IfId.bubble := rfl
@[simp] theorem settle_idex : (settle s).idex = IdEx.bubble := rfl
@[simp] theorem settle_exmem : (settle s).exmem = ExMem.bubble := rfl
@[simp] theorem settle_memwb : (settle s).memwb = MemWb.bubble := rfl
@[simp] theorem settle_wbret : (settle s).wbret = WbRet.bubble := rfl
@[simp] theorem settle_status : (settle s).status = s.status := rfl

theorem settle_pc_running (h : s.status = .running) : (settle s).pc = s.pc := by simp [settle, h]

/-- Settling again changes nothing. -/
@[simp] theorem settle_settle : settle (settle s) = settle s := by
  simp only [settle]
  split <;> simp_all

end Settle

/-- What an instruction can do to the pc and the status: go on at the next word, redirect, or end the run. -/
theorem exec_course (i : Instr) (s e : State) (h : exec i s = .next e) (hs : s.status = .running) :
    e.status ≠ .running ∨ (e.status = .running ∧ redirects i s = true) ∨
      (e.status = .running ∧ redirects i s = false ∧ e.pc = s.pc + 1#32) := by
  rw [exec_eq_next] at h
  cases h
  cases i with
  | add a b d x => exact Or.inr (Or.inr ⟨hs, rfl, rfl⟩)
  | nor a b d x => exact Or.inr (Or.inr ⟨hs, rfl, rfl⟩)
  | lw a b c =>
    rcases loadWord_cases Config.default a b c s with ⟨_, q⟩ | ⟨_, q⟩ <;> simp only [q]
    · exact Or.inr (Or.inr ⟨hs, rfl, rfl⟩)
    · exact Or.inl (by simp)
  | sw a b c =>
    rcases storeReg_cases Config.default a b c s with ⟨_, q⟩ | ⟨_, q⟩ <;> simp only [q]
    · exact Or.inr (Or.inr ⟨hs, rfl, rfl⟩)
    · exact Or.inl (by simp)
  | beq a b c =>
    cases q : eqFlag (s.readReg a) (s.readReg b) <;> simp [redirects, q, hs]
  | jalr a b x => exact Or.inr (Or.inr ⟨hs, rfl, rfl⟩)
  | halt x => exact Or.inl (by simp)
  | noop x => exact Or.inr (Or.inr ⟨hs, rfl, rfl⟩)
  | inert e x => exact Or.inr (Or.inr ⟨hs, rfl, rfl⟩)

/-- Redirection sees the registers only. -/
theorem redirects_congr (i : Instr) {s t : State} (h : s.reg = t.reg) : redirects i s = redirects i t := by
  have hr : ∀ r, s.readReg r = t.readReg r := State.readReg_congr h
  cases i <;> simp [redirects, hr]

/-- Finishing a word, by the next state `exec` gives it. -/
theorem finishWord_next {w p : Word} {t e : State} (h : exec (decode w) (t.setPc (p - 1#32)) = .next e) :
    finishWord w p t =
      if e.status ≠ .running then (e, false)
      else if redirects (decode w) t then (e, false)
      else (e.setPc t.pc, true) := by
  unfold finishWord
  rw [h]

/-- Finishing a word does not depend on the fetch pc but to give it back when the path goes on. -/
theorem finishWord_setPc (w p q : Word) (t : State) :
    finishWord w p (t.setPc q) =
      if (finishWord w p t).2 then ((finishWord w p t).1.setPc q, true) else finishWord w p t := by
  obtain ⟨e, he⟩ : ∃ e, exec (decode w) (t.setPc (p - 1#32)) = .next e := ⟨_, exec_eq_next _ _⟩
  have he' : exec (decode w) ((t.setPc q).setPc (p - 1#32)) = .next e := he
  have hr : redirects (decode w) (t.setPc q) = redirects (decode w) t := redirects_congr _ rfl
  rw [finishWord_next he', finishWord_next he, hr]
  generalize redirects (decode w) t = b
  by_cases h1 : e.status = .running <;> cases b <;> simp [h1, State.setPc]

/-- Finishing a NOOP, a bubble among them, does nothing. -/
theorem finishWord_noop {w : Word} (h : opcodeOf w = .noop) (p : Word) (t : State) (ht : t.status = .running) :
    finishWord w p t = (t, true) := by
  have hd : decode w = .noop (w.extractLsb' 0 22) := by
    unfold decode
    rw [h]
  cases t
  simp_all [finishWord, exec, execNoop, redirects, State.setPc, advance]

/-- Nothing in flight and the counter cleared: what `settle` leaves. -/
structure Settled (t : State) : Prop where
  cycles : t.cycles = 0
  ifid : t.ifid = IfId.bubble
  idex : t.idex = IdEx.bubble
  exmem : t.exmem = ExMem.bubble
  memwb : t.memwb = MemWb.bubble
  wbret : t.wbret = WbRet.bubble

theorem settled_settle (s : State) : Settled (settle s) := ⟨rfl, rfl, rfl, rfl, rfl, rfl⟩

theorem Settled.settle_eq {t : State} (h : Settled t) (hr : t.status = .running) : settle t = t := by
  obtain ⟨_, _, _, _, _, _⟩ := h
  cases t
  simp_all [settle]

/-- What keeps the counter and the latches keeps `Settled`. -/
theorem Settled.congr {t e : State} (h : Settled t)
    (he : e = { t with pc := e.pc, reg := e.reg, dmem := e.dmem, status := e.status }) : Settled e := by
  rw [he]
  exact ⟨h.cycles, h.ifid, h.idex, h.exmem, h.memwb, h.wbret⟩

/-- Finishing a word keeps `Settled`. -/
theorem finishWord_settled (w p : Word) {t : State} (h : Settled t) : Settled (finishWord w p t).1 := by
  obtain ⟨e, he⟩ := exec_next (decode w) (t.setPc (p - 1#32))
  have h1 : Settled (t.setPc (p - 1#32)) := ⟨h.cycles, h.ifid, h.idex, h.exmem, h.memwb, h.wbret⟩
  have h2 := h1.congr (exec_frame _ _ _ he)
  rw [finishWord_next he]
  split
  · exact h2
  · split
    · exact h2
    · exact ⟨h2.cycles, h2.ifid, h2.idex, h2.exmem, h2.memwb, h2.wbret⟩

/-- A word that leaves the path open leaves the run going on at the fetch pc. -/
theorem finishWord_open (w p : Word) (t : State) (h : (finishWord w p t).2 = true) :
    (finishWord w p t).1.status = .running ∧ (finishWord w p t).1.pc = t.pc := by
  obtain ⟨e, he⟩ := exec_next (decode w) (t.setPc (p - 1#32))
  rw [finishWord_next he] at h ⊢
  split at h
  · simp at h
  · split at h
    · simp at h
    · rename_i h1 h2
      rw [if_neg h1, if_neg h2]
      exact ⟨not_not.1 h1, rfl⟩

/-- Finishing the word just fetched is executing it at the pc it was fetched from. -/
theorem finishWord_fetch (w p : Word) (t : State) (ht : t.pc = p) (hr : t.status = .running) :
    ∃ e b, exec (decode w) t = .next e ∧ finishWord w (p + 1#32) (t.setPc (p + 1#32)) = (e, b) := by
  obtain ⟨e, he⟩ := exec_next (decode w) t
  have e1 : (t.setPc (p + 1#32)).setPc (p + 1#32 - 1#32) = t := by
    have : p + 1#32 - 1#32 = p := by simp
    rw [this, ← ht]; rfl
  have he' : exec (decode w) ((t.setPc (p + 1#32)).setPc (p + 1#32 - 1#32)) = .next e := by rw [e1]; exact he
  have hr' : redirects (decode w) (t.setPc (p + 1#32)) = redirects (decode w) t := redirects_congr _ rfl
  have hc := exec_course _ _ _ he hr
  rw [finishWord_next he', hr']
  rcases hc with h | ⟨h, h2⟩ | ⟨h, h2, h3⟩
  · exact ⟨e, false, he, by rw [if_pos h]⟩
  · exact ⟨e, false, he, by rw [if_neg (not_not.2 h), if_pos h2]⟩
  · refine ⟨e, true, he, ?_⟩
    rw [if_neg (not_not.2 h), h2]
    simp only [State.setPc_pc]
    have : e.setPc (p + 1#32) = e := by rw [← ht, ← h3]; rfl
    simp [this]

/-- What finishing MEMWB leaves in each register. -/
theorem finishMemwb_readReg {s : State} (hl : LatchFacts s) (t : State) (r : RegIdx) :
    (finishMemwb s t).1.readReg r = if s.memwb.dest = some r then s.memwb.writeData else t.readReg r := by
  have hd := destOf_isSome (decodeFields s.memwb.instr)
  rw [← hl.memwbDest] at hd
  simp only [decodeFields_op, ← hl.memwbOpcode] at hd
  simp only [finishMemwb]
  split
  · rename_i h
    rw [h] at hd
    simp [isWriter] at hd
    simp [hd, State.readReg]
  · split
    · simp [State.readReg_writeDest, destIs]
    · rename_i h
      rw [Bool.not_eq_true] at h
      rw [h] at hd
      simp at hd
      simp [hd]

/-- What finishing EXMEM leaves in each register, but for the destination of a LOAD. -/
theorem finishExmem_readReg {s : State} (hl : LatchFacts s) (t : State) (r : RegIdx) (c : Config)
    (hr : s.exmem.opcode = .load → s.exmem.dest ≠ some r) :
    (finishExmem c s t).1.readReg r = if s.exmem.dest = some r then s.exmem.aluResult else t.readReg r := by
  by_cases hd : s.exmem.dest = some r
  · have := hl.writer_of_exmemDest hd
    simp only [finishExmem]
    cases ho : s.exmem.opcode <;> simp [ho, isWriter] at this ⊢
    · simp [hd]
    · simp [hd]
    · exact absurd hd (hr ho)
  · simp only [finishExmem]
    cases ho : s.exmem.opcode <;> simp [State.readReg_writeDest, destIs, hd]
    · split
      · simp [State.readReg_writeDest, destIs, hd]
      · rfl
    · split <;> simp [State.readReg]
    · split <;> simp [State.readReg]
    · simp [State.readReg]

/-- Finishing MEMWB leaves the path open and changes registers only, unless a HALT is there. -/
theorem finishMemwb_frame {s : State} (h : s.memwb.opcode ≠ .halt) (t : State) :
    ∃ t', finishMemwb s t = (t', true) ∧ t' = { t with reg := t'.reg } := by
  simp only [finishMemwb, if_neg h]
  split
  · cases s.memwb.dest <;> exact ⟨_, rfl, rfl⟩
  · exact ⟨_, rfl, rfl⟩

/-- Finishing MEMWB before a committed cycle, beside the state the cycle leaves. -/
theorem finishMemwb_nextState {s : State} (hm : s.memwb.opcode ≠ .halt) (hr : s.status = .running) :
    ∃ t0, finishMemwb s (settle s) = (t0, true) ∧ Settled t0 ∧ t0.status = .running ∧ t0.pc = s.pc ∧
      t0.imem = s.imem ∧ t0.dmem = s.dmem ∧
      settle (nextState s) = (t0.setPc (nextState s).pc).setDmem (nextState s).dmem := by
  obtain ⟨t0, h1, h2⟩ := finishMemwb_frame hm (settle s)
  have hreg : t0.reg = (nextState s).reg := by
    rw [nextState_reg]
    have : t0 = (finishMemwb s (settle s)).1 := by rw [h1]
    rw [this]
    simp only [finishMemwb, if_neg hm]
    split
    · cases s.memwb.dest <;> rfl
    · rfl
  refine ⟨t0, h1, (settled_settle s).congr (by rw [h2]), by rw [h2]; exact hr,
    by rw [h2]; exact settle_pc_running s hr, by rw [h2]; rfl, by rw [h2]; rfl, ?_⟩
  rw [h2]
  simp only [settle, nextState_status, hr, ↓reduceIte, State.setPc, State.setDmem, hreg, nextState_imem]

/-- Finishing EXMEM before a cycle that neither faults, halts nor flushes is finishing MEMWB after it. -/
theorem finishExmem_nextState {s : State} (hf : cycleFault Config.default s = none)
    (hm : s.memwb.opcode ≠ .halt) (hr : s.status = .running)
    (hh : s.exmem.opcode ≠ .halt) (hb : branchTaken s = false) :
    ∃ t1, finishExmem Config.default s (finishMemwb s (settle s)).1 = (t1, true) ∧
      finishMemwb (nextState s) (settle (nextState s)) = (t1.setPc (nextState s).pc, true) ∧
      Settled t1 ∧ t1.status = .running ∧ t1.pc = s.pc ∧ t1.imem = s.imem := by
  obtain ⟨t0, h1, h2, h3, h4, h5, h5', h6⟩ := finishMemwb_nextState hm hr
  rw [h6, h1]
  have hn : (nextState s).memwb = accessedLatch s := nextState_memwb s
  have hd := nextState_dmem s
  have hfc := cycleFault_cases Config.default s
  rw [hf] at hfc
  simp only [reduceCtorEq, and_false, false_or] at hfc
  have hdd : ∀ q, ((t0.setPc q).setDmem s.dmem) = t0.setPc q := by intro q; rw [← h5']; rfl
  cases ho : s.exmem.opcode
  case halt => exact absurd ho hh
  case add | nor =>
    rw [ho] at hd; simp only [reduceCtorEq, ↓reduceIte] at hd
    refine ⟨t0.writeDest s.exmem.dest s.exmem.aluResult, by simp [finishExmem, ho], ?_, h2.congr ?_, ?_, ?_, ?_⟩
    · simp only [finishMemwb, hn, accessedLatch, ho, isWriter, hd, hdd]
      cases s.exmem.dest <;> rfl
    all_goals cases s.exmem.dest <;> first | rfl | assumption
  case load =>
    have hx : inRange Config.default.dmemWords s.exmem.aluResult = true := by
      have := hfc.1; rw [ho] at this; simpa [accessesData] using this
    rw [ho] at hd; simp only [reduceCtorEq, ↓reduceIte] at hd
    have hmm : t0.dmemWord s.exmem.aluResult = s.dmemWord s.exmem.aluResult := by simp only [State.dmemWord, h5']
    refine ⟨t0.writeDest s.exmem.dest (s.dmemWord s.exmem.aluResult), by simp [finishExmem, ho, hx, hmm],
      ?_, h2.congr ?_, ?_, ?_, ?_⟩
    · simp only [finishMemwb, hn, accessedLatch, ho, isWriter, hd, hdd]
      cases s.exmem.dest <;> rfl
    all_goals cases s.exmem.dest <;> first | rfl | assumption
  case store =>
    have hx : inRange Config.default.dmemWords s.exmem.aluResult = true := by
      have := hfc.1; rw [ho] at this; simpa [accessesData] using this
    rw [ho] at hd; simp only [↓reduceIte] at hd
    refine ⟨t0.storeWord s.exmem.aluResult s.exmem.readRegB, by simp [finishExmem, ho, hx], ?_,
      h2.congr rfl, h3, h4, h5⟩
    simp only [finishMemwb, hn, accessedLatch, ho, isWriter, hd, reduceCtorEq, ↓reduceIte, Bool.false_eq_true]
    rw [← h5']; rfl
  case beq =>
    rw [ho] at hd; simp only [reduceCtorEq, ↓reduceIte] at hd
    have he : s.exmem.eq = false := by simpa [branchTaken, ho] using hb
    refine ⟨t0, by simp [finishExmem, ho, he], ?_, h2, h3, h4, h5⟩
    simp [finishMemwb, accessedLatch, ho, isWriter, hd, hdd]
  all_goals
    rw [ho] at hd; simp only [reduceCtorEq, ↓reduceIte] at hd
    refine ⟨t0, by simp [finishExmem, ho], ?_, h2, h3, h4, h5⟩
    simp [finishMemwb, accessedLatch, ho, isWriter, hd, hdd]

/-- Finishing the word in IDEX before a cycle without a flush is finishing EXMEM after it, if the operands
Execute resolves are the register values. -/
theorem finishWord_nextState {s : State} (hl : LatchFacts s) (hb : branchTaken s = false) (t1 : State) (q : Word)
    (hr : t1.status = .running)
    (ha : isUser s.idex.opcode = true → operandA s = t1.readReg (fieldA s.idex.instr))
    (hbb : isUser s.idex.opcode = true → s.idex.opcode ≠ .load → operandB s = t1.readReg (fieldB s.idex.instr)) :
    ((finishWord s.idex.instr s.idex.pcPlus1 t1).2 = true →
      finishExmem Config.default (nextState s) (t1.setPc q) =
        ((finishWord s.idex.instr s.idex.pcPlus1 t1).1.setPc q, true)) ∧
    ((finishWord s.idex.instr s.idex.pcPlus1 t1).2 = false →
      (finishExmem Config.default (nextState s) (t1.setPc q)).2 = false ∧
      settle (finishExmem Config.default (nextState s) (t1.setPc q)).1 =
        settle (finishWord s.idex.instr s.idex.pcPlus1 t1).1) := by
  have hx : (nextState s).exmem = executedLatch s := by rw [nextState_exmem, hb]; simp
  obtain ⟨e, he⟩ := exec_next (decode s.idex.instr) (t1.setPc (s.idex.pcPlus1 - 1#32))
  rw [finishWord_next he]
  have ho := hl.idexOpcode
  have hd := hl.idexDest
  have hoff := hl.offsetIs
  rw [exec_eq_next, decode_of_op, ← ho] at he
  have hred : redirects (decode s.idex.instr) t1 = (decide (s.idex.opcode = .beq) &&
      eqFlag (t1.readReg (fieldA s.idex.instr)) (t1.readReg (fieldB s.idex.instr))) := by
    rw [decode_of_op, ← ho]
    cases s.idex.opcode <;> rfl
  rw [hred]
  have hrr : ∀ r q, (t1.setPc q).readReg r = t1.readReg r := fun _ _ => rfl
  have hp1 : s.idex.pcPlus1 - 1#32 + 1#32 = s.idex.pcPlus1 := by simp
  have hda : dataAddress (fieldA s.idex.instr) (fieldC s.idex.instr) (t1.setPc (s.idex.pcPlus1 - 1#32)) =
      effectiveAddress (t1.readReg (fieldA s.idex.instr)) (sext16 (fieldC s.idex.instr)) := rfl
  simp only [hrr] at he
  simp only [finishExmem, hx, executedLatch]
  cases hop : s.idex.opcode <;> rw [hop] at he ha hbb <;> simp only [Host.Outcome.next.injEq] at he <;>
    simp only [isUser] at ha hbb <;> subst he
  case add =>
    have hd2 : s.idex.dest = some ((fieldC s.idex.instr).extractLsb' 0 3) := by rw [hd]; simp [destOf, ← ho, hop]
    rw [hd2, ha trivial, hbb trivial (by simp)]
    simp [hr, aluResultOf]
    rfl
  case nor =>
    have hd2 : s.idex.dest = some ((fieldC s.idex.instr).extractLsb' 0 3) := by rw [hd]; simp [destOf, ← ho, hop]
    rw [hd2, ha trivial, hbb trivial (by simp)]
    simp [hr, aluResultOf]
    rfl
  case load =>
    have hd2 : s.idex.dest = some (fieldB s.idex.instr) := by rw [hd]; simp [destOf, ← ho, hop]
    rw [hd2, ha trivial, hoff]
    simp only [aluResultOf]
    rcases loadWord_cases Config.default (fieldA s.idex.instr) (fieldB s.idex.instr) (fieldC s.idex.instr)
      (t1.setPc (s.idex.pcPlus1 - 1#32)) with ⟨h, h'⟩ | ⟨h, h'⟩ <;> rw [h'] <;> rw [hda] at h ⊢
    · simp [hr, h]; rfl
    · simp [h]; rfl
  case store =>
    rw [ha trivial, hbb trivial (by simp), hoff]
    simp only [aluResultOf]
    rcases storeReg_cases Config.default (fieldA s.idex.instr) (fieldB s.idex.instr) (fieldC s.idex.instr)
      (t1.setPc (s.idex.pcPlus1 - 1#32)) with ⟨h, h'⟩ | ⟨h, h'⟩ <;> rw [h'] <;> rw [hda] at h ⊢
    · simp [hr, h]; rfl
    · simp [h]; rfl
  case beq =>
    rw [ha trivial, hbb trivial (by simp), hoff]
    cases h : eqFlag (t1.readReg (fieldA s.idex.instr)) (t1.readReg (fieldB s.idex.instr))
    · simp [hr]; rfl
    · simp [hr, hp1]; rfl
  case halt => simp; rfl
  all_goals simp [hr]; rfl

end Sys2Proof.Machine
end

