-- ==== Sys2Proof/Laws/Timing.lean ====
section
/-! SUPPORT. What a committing edge is and does, and how runs of edges compose. -/

namespace Sys2Proof.Machine

/-- What it is for an edge to commit a cycle, as a proposition. -/
theorem commits_iff (c : Config) (s : State) :
    commits c s = true ↔
      s.status = .running ∧ s.memwb.opcode ≠ .halt ∧ capReachedAt c s = false ∧ cycleFault c s = none := by
  simp [commits, and_assoc]

/-- A committing edge leads to the next state of the cycle. -/
theorem advanceClock_of_commits {c : Config} {s : State} (h : commits c s = true) :
    advanceClock c s = nextState s := by
  obtain ⟨h1, h2, h3, h4⟩ := (commits_iff c s).1 h
  rcases advanceClock_cases c s with h | h | h | h | h | h <;> simp_all

theorem step_of_commits {s : State} (h : commits Config.default s = true) : step s = .next (nextState s) := by
  rw [step_eq, advanceClock_of_commits h]

@[simp] theorem runClock_zero (c : Config) (s : State) : runClock c 0 s = s := rfl

@[simp] theorem runClock_succ (c : Config) (k : Nat) (s : State) :
    runClock c (k + 1) s = runClock c k (advanceClock c s) := rfl

/-- A run of edges splits. -/
theorem runClock_add (c : Config) (j k : Nat) (s : State) :
    runClock c (j + k) s = runClock c k (runClock c j s) := by
  induction j generalizing s with
  | zero => simp
  | succ j ih => rw [Nat.succ_add]; simp only [runClock_succ, ih]

/-- The last edge of a run, split off. -/
theorem runClock_succ_last (c : Config) (k : Nat) (s : State) :
    runClock c (k + 1) s = advanceClock c (runClock c k s) := by
  rw [runClock_add c k 1 s]; rfl

end Sys2Proof.Machine
end

