-- ==== Sys2Proof/Tests/Slice0.lean ====
section
/-! SUPPORT. Small tests: words of the spec against the decoder and encoder, one step or one operation of 95_test_vectors.md each, the ill-formed terms the checks refuse, and one witness for the hypotheses of each statement. -/

namespace Sys2Proof.Tests

open Sys2Proof.Machine

/-! Well-formedness: one ill-formed term for each check (30_encoding.md R106, R110) -/

theorem test_wf_refuses_inert_with_zero_ext : (Instr.inert 0#7 5#25).wf = false := by decide
theorem test_wf_refuses_lw_offset_above : (AsmLine.lw 0#3 1#3 32768).wf = false := by decide
theorem test_wf_refuses_sw_offset_below : (AsmLine.sw 0#3 1#3 (-32769)).wf = false := by decide
theorem test_wf_refuses_beq_offset_above : (AsmLine.beq 0#3 1#3 40000).wf = false := by decide
theorem test_wf_refuses_fill_outside_32_bits : (AsmLine.fill 2147483648).wf = false := by decide
theorem test_wf_accepts_offset_bounds :
    (AsmLine.lw 0#3 1#3 32767).wf && (AsmLine.beq 0#3 1#3 (-32768)).wf = true := by decide
theorem test_config_wf_refuses_empty_memory : (Config.wf { Config.default with imemWords := 0 }) = false := by decide
theorem test_config_default_wf : Config.default.wf = true := by decide

/-! Decoder and encoder (95_test_vectors.md V10 to V22), words written out by field: X op A B C -/

theorem test_decode_add : decode 0b0000000_000_010_011_0000000000000_001#32 = .add 2#3 3#3 1#3 0#13 := by decide
theorem test_decode_add_ignored_bits : decode 0x00007FFF#32 = .add 0#3 0#3 7#3 0xFFF#13 := by decide
theorem test_decode_nor : decode 0x004A0003#32 = .nor 1#3 2#3 3#3 0#13 := by decide
theorem test_decode_lw : decode 0x00810006#32 = .lw 0#3 1#3 6#16 := by decide
theorem test_decode_sw : decode 0x00C3000A#32 = .sw 0#3 3#3 10#16 := by decide
theorem test_decode_beq : decode 0x0100FFFC#32 = .beq 0#3 0#3 0xFFFC#16 := by decide
theorem test_decode_jalr : decode 0x014A0000#32 = .jalr 1#3 2#3 0#16 := by decide
theorem test_decode_halt : decode 0x01800000#32 = .halt 0#22 := by decide
theorem test_decode_noop : decode 0x01FFFFFF#32 = .noop 0x3FFFFF#22 := by decide
theorem test_decode_inert_bit_25 : decode 0x02000000#32 = .inert 1#7 0#25 := by decide
theorem test_decode_inert_all_ones : decode 0xFFFFFFFF#32 = .inert 0x7F#7 0x1FFFFFF#25 := by decide
theorem test_fields_negative_offset :
    decodeFields 0x0100FFFC#32 = { op := .beq, a := 0#3, b := 0#3, c := 0xFFFC#16, off := 0xFFFFFFFC#32 } := by decide
theorem test_fields_most_negative_offset : (decodeFields 0x00008000#32).off = 0xFFFF8000#32 := by decide
theorem test_dest_of_vectors :
    destOf (decodeFields 0x000003E7#32) = some 7#3 ∧ destOf (decodeFields 0x00810006#32) = some 1#3 ∧
      destOf (decodeFields 0x00C3000A#32) = none ∧ destOf (decodeFields 0xFFFFFFFF#32) = none := by decide
theorem test_opcode_codes :
    (opcodeOf 0x01C00000#32).code = 7#4 ∧ (opcodeOf 0x01000000#32).code = 4#4 ∧
      (opcodeOf 0x02000000#32).code = 8#4 := by decide
theorem test_bubble_dest_is_not_valid :
    (controlWires State.reset).idexDest.valid = 0#1 ∧ destWires (some 5#3) = { valid := 1#1, index := 5#3 } := by
  decide
theorem test_decodeTableWord_sw : decodeTableWord 32 0x00C30007 = some (.sw 0#3 3#3 7#16) := by decide
theorem test_assembler_words :
    (AsmLine.add 2#3 3#3 1#3).word = 0x00130001#32 ∧ (AsmLine.nor 1#3 2#3 3#3).word = 0x004A0003#32 ∧
      (AsmLine.lw 0#3 1#3 6).word = 0x00810006#32 ∧ (AsmLine.sw 0#3 3#3 7).word = 0x00C30007#32 ∧
      (AsmLine.beq 0#3 0#3 (-4)).word = 0x0100FFFC#32 ∧ (AsmLine.jalr 1#3 2#3).word = 0x014A0000#32 ∧
      AsmLine.halt.word = 0x01800000#32 ∧ AsmLine.noop.word = noopWord ∧ (AsmLine.fill (-1)).word = 0xFFFFFFFF#32 := by
  decide
theorem test_branch_label : labelForBranch 5 2 = -4 := by decide

/-! Small states -/

/-- The reset state with registers r1 to r3 given. -/
def regs (r1 r2 r3 : Word) : State :=
  { State.reset with reg := #v[0#32, r1, r2, r3, 0#32, 0#32, 0#32, 0#32] }

/-- `s` with the decoded word `w` in IDEX. -/
def inIdex (w : Word) (s : State) : State :=
  s.setIdex
    { IdEx.bubble with
      instr := w
      offset := (decodeFields w).off
      opcode := opcodeOf w
      dest := destOf (decodeFields w) }

/-- `s` with the executed word `w` in EXMEM, its ALU result, flag and target given. -/
def inExmem (w alu b target : Word) (eq : Bool) (s : State) : State :=
  s.setExmem
    { instr := w
      branchTarget := target
      eq := eq
      aluResult := alu
      readRegB := b
      opcode := opcodeOf w
      dest := destOf (decodeFields w) }

/-- `s` with the word `w` in MEMWB and its value. -/
def inMemwb (w v : Word) (s : State) : State :=
  s.setMemwb { instr := w, writeData := v, opcode := opcodeOf w, dest := destOf (decodeFields w) }

/-- `s` with the word `w` in WBRET and its value. -/
def inWbret (w v : Word) (s : State) : State :=
  s.setWbret { instr := w, writeData := v, dest := destOf (decodeFields w) }

/-- `s` with the word `w` in IFID. -/
def inIfid (w : Word) (s : State) : State := s.setIfid { instr := w, pcPlus1 := s.pc }

/-- `lw r0 r1 0` in IDEX and `w` in IFID (95_test_vectors.md V60 to V71). -/
def behindLoad (w : Word) : State := inIfid w (inIdex 0x00810000#32 State.reset)

/-- What a register, the pc or data memory holds after one `exec`; 0 if it gave no next state. -/
def regAfter (i : Instr) (s : State) (r : RegIdx) : Word :=
  match exec i s with
  | .next t => t.readReg r
  | .fault _ => 0#32
  | .refused _ => 0#32

def after (i : Instr) (s : State) : State :=
  match exec i s with
  | .next t => t
  | .fault _ => State.reset
  | .refused _ => State.reset

/-! exec, at most two per instruction -/

theorem test_add_wraps : regAfter (.add 1#3 2#3 3#3 0#13) (regs 0x7FFFFFFF 1 0) 3#3 = 0x80000000#32 := by decide
theorem test_add_dest_is_source_r0 : regAfter (.add 1#3 1#3 0#3 0#13) (regs 0xFFFFFFFF 0 0) 0#3 = 0xFFFFFFFE#32 := by decide
theorem test_nor_worked_example : regAfter (.nor 1#3 2#3 3#3 0#13) (regs 0x0F 0xF0 0) 3#3 = 0xFFFFFF00#32 := by decide
theorem test_nor_complementary : regAfter (.nor 1#3 2#3 1#3 0#13) (regs 0xAAAAAAAA 0x55555555 7) 1#3 = 0#32 := by decide
theorem test_lw_base_is_destination :
    regAfter (.lw 1#3 1#3 0xFFFB#16) ((regs 5 0 0).setDmem [(0, 33#32)]) 1#3 = 33#32 := by decide
theorem test_lw_minus_one_faults :
    (after (.lw 0#3 1#3 0xFFFF#16) State.reset).status = .faulted (.dataAccessOutOfRange 0xFFFFFFFF#32) 1 := by decide
theorem test_sw_worked_example : (after (.sw 0#3 3#3 7#16) (regs 0 0 15)).dmem = [(7, 15#32)] := by decide
theorem test_sw_past_the_end_faults :
    (after (.sw 1#3 2#3 1#16) (regs 65535 9 0)) =
      takeFault (.dataAccessOutOfRange 65536#32) (regs 65535 9 0) := by decide
theorem test_beq_taken_backwards : (after (.beq 1#3 2#3 0xFFF5#16) ((regs 7 7 0).setPc 10#32)).pc = 0#32 := by decide
theorem test_beq_untaken : (after (.beq 1#3 2#3 3#16) ((regs 1 2 0).setPc 10#32)).pc = 11#32 := by decide
theorem test_jalr_does_not_jump_or_link :
    after (.jalr 1#3 2#3 0#16) (regs 9 8 0) = (regs 9 8 0).setPc 1#32 := by decide
theorem test_halt_ends_the_run : (after (.halt 0#22) State.reset).status = .halted := by decide
theorem test_noop_advances : after (.noop 0x3FFFFF#22) (regs 9 8 0) = (regs 9 8 0).setPc 1#32 := by decide
theorem test_inert_advances : after (.inert 0x7F#7 0#25) (regs 9 8 0) = (regs 9 8 0).setPc 1#32 := by decide

/-! The hazard unit (95_test_vectors.md V60 to V73) -/

theorem test_stalls :
    loadUse (behindLoad 0x000A0003#32) ∧ loadUse (behindLoad 0x00110003#32) ∧ loadUse (behindLoad 0x00490001#32) ∧
      loadUse (behindLoad 0x01010005#32) ∧ loadUse (behindLoad 0x00C10004#32) ∧
      loadUse (behindLoad 0x00C80004#32) ∧ loadUse (behindLoad 0x008A0000#32) := by decide
theorem test_no_stalls :
    ¬loadUse (behindLoad 0x00130001#32) ∧ ¬loadUse (behindLoad 0x00810000#32) ∧
      ¬loadUse (behindLoad 0x01490000#32) ∧ ¬loadUse (behindLoad 0x01800000#32) ∧
      ¬loadUse (behindLoad 0xFE090000#32) ∧
      ¬loadUse (inIfid 0x00090001#32 (inIdex 0x00000001#32 State.reset)) ∧
      ¬loadUse (inIfid 0x00090001#32 State.reset) := by decide

/-! The forwarding unit (95_test_vectors.md V74 to V80) -/

theorem test_forward_tier_1 :
    fwd (inExmem 1#32 7#32 0#32 0#32 false (inMemwb 1#32 8#32 (inWbret 1#32 9#32 State.reset))) 1#3 100#32 = 7#32 := by decide
theorem test_forward_tier_2 :
    fwd (inExmem 0x00C10000#32 7#32 0#32 0#32 false (inMemwb 0x00810000#32 8#32 State.reset)) 1#3 100#32 = 8#32 := by decide
theorem test_forward_tier_3 :
    fwd (inExmem 0x00400002#32 7#32 0#32 0#32 false (inMemwb 3#32 8#32 (inWbret 0x00810000#32 9#32 State.reset)))
      1#3 100#32 = 9#32 := by decide
theorem test_forward_none : fwd State.reset 1#3 100#32 = 100#32 := by decide
theorem test_forward_load_gives_its_address :
    fwd (inExmem 0x00810028#32 40#32 0#32 0#32 false State.reset) 1#3 100#32 = 40#32 := by decide
theorem test_forward_r0 : fwd (inExmem 0#32 5#32 0#32 0#32 false State.reset) 0#3 100#32 = 5#32 := by decide

/-! One clock edge -/

/-- 95_test_vectors.md P5, cycle 4: a taken BEQ in EXMEM, a LOAD in IDEX and its consumer in IFID. -/
def stallAndFlush : State :=
  inIfid 0x00090002#32 (inIdex 0x00810004#32 (inExmem 0x01000002#32 0#32 0#32 3#32 true (State.reset.setPc 3#32)))

/-- 95_test_vectors.md P10, cycle 5: a STORE to address -1 in EXMEM and a NOR in MEMWB. -/
def faultingStore : State :=
  (inExmem 0x00C90000#32 0xFFFFFFFF#32 0xFFFFFFFF#32 0#32 true (inMemwb 0x00400001#32 0xFFFFFFFF#32
    (State.reset.setPc 4#32))).setCycles 4

/-- 44_system.md R260: a HALT placed at reset has ended the run after five steps; 42_loadstore.md R221: a LOAD has
written its register after five. -/
theorem test_placed_words_run :
    (runClock Config.default 5 (State.reset.withFetchWord 32 0x01800000)).status = .halted ∧
      (runClock Config.default 5 ((State.reset.setDmem [(6, 5#32)]).withFetchWord 32 0x00810006)).readReg 1#3 =
        5#32 := by decide
theorem test_first_step_fetches : (advanceClock Config.default (State.reset.withFetchWord 32 0x00810006)).ifid =
    { instr := 0x00810006#32, pcPlus1 := 1#32 } := by decide
theorem test_flush_wins_over_stall :
    (advanceClock Config.default stallAndFlush).pc = 3#32 ∧
      (advanceClock Config.default stallAndFlush).exmem = ExMem.bubble ∧
      (advanceClock Config.default stallAndFlush).ifid = IfId.bubble := by decide
theorem test_stall_holds :
    (advanceClock Config.default (behindLoad 0x000A0003#32)).ifid = (behindLoad 0x000A0003#32).ifid ∧
      (advanceClock Config.default (behindLoad 0x000A0003#32)).idex = IdEx.bubble := by decide
theorem test_store_reaches_memory :
    (advanceClock Config.default (inExmem 0x00C30007#32 7#32 15#32 0#32 false State.reset)).dmem = [(7, 15#32)] := by decide
theorem test_load_reads_memory :
    (advanceClock Config.default
      (inExmem 0x00810006#32 6#32 0#32 0#32 false (State.reset.setDmem [(6, 5#32)]))).memwb.writeData = 5#32 := by decide
theorem test_writeback_writes_r0 :
    (advanceClock Config.default (inMemwb 0x00000000#32 9#32 State.reset)).readReg 0#3 = 9#32 := by decide
theorem test_faulting_store_commits_nothing :
    advanceClock Config.default faultingStore =
      faultingStore.setStatus (.faulted (.dataAccessOutOfRange 0xFFFFFFFF#32) 5) := by decide
theorem test_both_faults_give_the_data_fault :
    (advanceClock { Config.default with imemWords := 3 } faultingStore).status =
      .faulted (.dataAccessOutOfRange 0xFFFFFFFF#32) 5 := by decide
theorem test_fetch_fault_of_v43 :
    (advanceClock { Config.default with imemWords := 2 } ((State.reset.setPc 2#32).setCycles 2)).status =
      .faulted (.instructionFetchOutOfRange 2#32) 3 := by decide
theorem test_halt_in_memwb : advanceClock Config.default (inMemwb 0x01800000#32 0#32 State.reset) =
    (inMemwb 0x01800000#32 0#32 State.reset).setStatus .halted := by decide
theorem test_halt_extra_cycle :
    (advanceClock { Config.default with haltExtraCycle := true } (inMemwb 0x01800000#32 0#32 State.reset)).wbret.instr =
      0x01800000#32 := by decide
theorem test_cap : (advanceClock { Config.default with cycleCap := some 20 } (State.reset.setCycles 20)).status =
    .capReached := by decide
theorem test_image_too_long_is_refused :
    (match loadImage { Config.default with dmemWords := 2 } [1#32, 2#32, 3#32] with
      | .next _ => none
      | .fault _ => none
      | .refused r => some r) = some (.imageTooLong 3) := by decide
theorem test_image_is_mirrored :
    (match loadImage Config.default [5#32, 0#32, 6#32] with
      | .next s => (s.imem, s.dmem)
      | .fault _ => ([], [])
      | .refused _ => ([], [])) = ([(0, 5#32), (2, 6#32)], [(0, 5#32), (2, 6#32)]) := by decide
theorem test_memory_write_removes_zero : memWrite [(3, 1#32), (5, 2#32)] 3 0#32 = [(5, 2#32)] := by decide
theorem test_status_codes :
    Status.code .running = 0 ∧ Status.code (.faulted (.instructionFetchOutOfRange 0#32) 1) = 1 ∧
      Status.code (.faulted (.dataAccessOutOfRange 0#32) 1) = 2 ∧ Status.code .halted = 3 ∧
      Status.code .capReached = 4 := by decide

/-! Witnesses: for each statement with hypotheses, states and operands that meet all of them, one for each clause
and at the ends of a range -/

/-- A BEQ in EXMEM with target 3 and the given flag. -/
def withBeq (eq : Bool) : State := inExmem 0x01000002#32 0#32 0#32 3#32 eq State.reset

/-- A HALT in MEMWB. -/
def withHalt : State := inMemwb 0x01800000#32 0#32 State.reset

/-- A consumer of the LOAD in IDEX. -/
def stalling : State := behindLoad 0x000A0003#32

theorem witness_EncodedInstructionDecodesBack :
    (Instr.inert 1#7 0#25).wf = true ∧ (Instr.add 7#3 0#3 7#3 0x1FFF#13).wf = true := by decide

theorem witness_LoadWritesTheWordAtItsAddress :
    (0 ≤ ((regs 0 0 0).readReg 1#3 + sext16 0#16).toInt ∧ ((regs 0 0 0).readReg 1#3 + sext16 0#16).toInt < 65536) ∧
    (0 ≤ ((regs 65530 0 0).readReg 1#3 + sext16 5#16).toInt ∧
      ((regs 65530 0 0).readReg 1#3 + sext16 5#16).toInt < 65536) := by decide

theorem witness_StoreWritesTheWordAtItsAddress :
    (Memory.wf (regs 0 0 0).dmem = true ∧ 0 ≤ (dataAddress 1#3 0#16 (regs 0 0 0)).toInt ∧
      (dataAddress 1#3 0#16 (regs 0 0 0)).toInt < 65536) ∧
    (Memory.wf ((regs 65530 0 0).setDmem [(3, 1#32)]).dmem = true ∧
      0 ≤ (dataAddress 1#3 5#16 ((regs 65530 0 0).setDmem [(3, 1#32)])).toInt ∧
      (dataAddress 1#3 5#16 ((regs 65530 0 0).setDmem [(3, 1#32)])).toInt < 65536) := by decide

theorem witness_OutOfRangeLoadAndStoreTakeTheFault :
    ((regs 0 0 0).readReg 1#3 + sext16 0xFFFF#16).toInt < 0 ∧
    65536 ≤ ((regs 65535 0 0).readReg 1#3 + sext16 1#16).toInt := by decide

theorem witness_BeqChangesOnlyThePc :
    (regs 7 7 0).readReg 1#3 = (regs 7 7 0).readReg 2#3 ∧ (regs 1 2 0).readReg 1#3 ≠ (regs 1 2 0).readReg 2#3 := by
  decide

theorem witness_FetchFillsIfidAndAdvancesThePc :
    (commits Config.default State.reset = true ∧ loadUse State.reset = false ∧ branchTaken State.reset = false) ∧
    (commits Config.default (State.reset.setPc 65535#32) = true ∧ loadUse (State.reset.setPc 65535#32) = false ∧
      branchTaken (State.reset.setPc 65535#32) = false) := by decide

theorem witness_PcIsWrittenInPrecedenceOrder :
    (commits Config.default (withBeq true) = true ∧ (withBeq true).exmem.opcode = .beq ∧
      (withBeq true).exmem.eq = true) ∧
    (commits Config.default stalling = true ∧ stalling.exmem.opcode ≠ .beq ∧ loadUse stalling = true) ∧
    (commits Config.default State.reset = true ∧ State.reset.exmem.opcode ≠ .beq ∧ loadUse State.reset = false) := by
  decide

theorem witness_DecodeFillsIdexFromTheSnapshot :
    commits Config.default (inIfid 0x00130001#32 (regs 1 2 3)) = true ∧
      loadUse (inIfid 0x00130001#32 (regs 1 2 3)) = false ∧
      branchTaken (inIfid 0x00130001#32 (regs 1 2 3)) = false := by decide

theorem witness_StallHoldsTheWordAndInsertsABubble :
    (commits Config.default stalling = true ∧ loadUse stalling = true ∧ branchTaken stalling = false ∧
      latchesConsistent stalling = true) ∧
    (commits Config.default stallAndFlush = true ∧ loadUse stallAndFlush = true ∧
      branchTaken stallAndFlush = true) := by decide

theorem witness_NoStallFollowsAStall :
    commits Config.default stalling = true ∧ loadUse stalling = true := by decide

theorem witness_NearestProducerWins :
    (let s := inExmem 1#32 7#32 0#32 0#32 false (inMemwb 1#32 8#32 (inWbret 1#32 9#32 State.reset))
     s.exmem.dest = some 1#3 ∧ s.exmem.opcode ∈ [Op.add, .nor, .load]) ∧
    (let s := inMemwb 1#32 8#32 (inWbret 1#32 9#32 State.reset)
     ¬(s.exmem.dest = some 1#3 ∧ s.exmem.opcode ∈ [Op.add, .nor, .load]) ∧
       s.memwb.dest = some 1#3 ∧ s.memwb.opcode ∈ [Op.add, .nor, .load]) ∧
    (let s := inWbret 1#32 9#32 State.reset
     ¬(s.exmem.dest = some 1#3 ∧ s.exmem.opcode ∈ [Op.add, .nor, .load]) ∧
       ¬(s.memwb.dest = some 1#3 ∧ s.memwb.opcode ∈ [Op.add, .nor, .load]) ∧
       s.wbret.dest = some 1#3 ∧ (decodeFields s.wbret.instr).op ∈ [Op.add, .nor, .load]) ∧
    (let s := State.reset
     ¬(s.exmem.dest = some 1#3 ∧ s.exmem.opcode ∈ [Op.add, .nor, .load]) ∧
       ¬(s.memwb.dest = some 1#3 ∧ s.memwb.opcode ∈ [Op.add, .nor, .load]) ∧
       ¬(s.wbret.dest = some 1#3 ∧ (decodeFields s.wbret.instr).op ∈ [Op.add, .nor, .load])) := by decide

/-- `add r1 r1 r2` in IDEX behind an ADD of r1 in EXMEM and another in MEMWB. -/
def forwarding : State := inIdex 0x00090002#32 (inExmem 1#32 7#32 0#32 0#32 true (inMemwb 1#32 8#32 State.reset))

theorem witness_ForwardedOperandsAreTheSequentialValues :
    latchesConsistent forwarding = true ∧ isUser forwarding.idex.opcode = true ∧ forwarding.idex.opcode ≠ .load := by
  decide

theorem witness_ExecuteFillsExmem :
    commits Config.default forwarding = true ∧ branchTaken forwarding = false := by decide

theorem witness_MemoryStageFillsMemwb :
    commits Config.default (inExmem 0x00810006#32 65535#32 0#32 0#32 false State.reset) = true := by decide

theorem witness_DataMemoryIsWrittenByTheMemoryStageOnly :
    Memory.wf (inExmem 0x00C30007#32 65535#32 15#32 0#32 false State.reset).dmem = true ∧
      commits Config.default (inExmem 0x00C30007#32 65535#32 15#32 0#32 false State.reset) = true := by decide

theorem witness_TakenBeqFlushesAndRedirects :
    (commits Config.default (withBeq true) = true ∧ (withBeq true).exmem.opcode = .beq ∧
      (withBeq true).exmem.eq = true) ∧
    (commits Config.default (withBeq false) = true ∧ (withBeq false).exmem.opcode = .beq ∧
      (withBeq false).exmem.eq = false ∧ loadUse (withBeq false) = false) := by decide

theorem witness_SquashedWordsNeverWrite :
    branchTaken (withBeq true) = true ∧
      ∀ k, k < 5 → commits Config.default (runClock Config.default k (withBeq true)) = true := by decide

theorem witness_RegistersAreWrittenByWritebackOnly :
    commits Config.default (inMemwb 0#32 9#32 State.reset) = true ∧
      (inMemwb 0#32 9#32 State.reset).memwb.dest = some 0#3 := by decide

theorem witness_WritebackFillsWbretUnconditionally :
    commits Config.default (inMemwb 0x01C00000#32 9#32 State.reset) = true := by decide

theorem witness_InstructionsMoveOneLatchForward :
    (commits Config.default forwarding = true ∧ branchTaken forwarding = false ∧ loadUse forwarding = false) ∧
    (commits Config.default stalling = true ∧ branchTaken stalling = false ∧ loadUse stalling = true) ∧
    (commits Config.default stallAndFlush = true ∧ branchTaken stallAndFlush = true) := by decide

theorem witness_UntakenBeqActsAsNoop :
    (commits Config.default (withBeq false) = true ∧ (withBeq false).exmem.opcode = .beq ∧
      (withBeq false).exmem.eq = false ∧ loadUse (withBeq false) = false) ∧
    (let s := stalling.setExmem (withBeq false).exmem
     commits Config.default s = true ∧ s.exmem.opcode = .beq ∧ s.exmem.eq = false ∧ loadUse s = true) := by decide

/-- `sw r0 r3 7` in EXMEM and `lw r0 r1 7` behind it in IDEX. -/
def storeThenLoad : State := inIdex 0x00810007#32 (inExmem 0x00C30007#32 7#32 15#32 0#32 false State.reset)

theorem witness_LoadAfterStoreReadsTheStoredWord :
    Memory.wf storeThenLoad.dmem = true ∧ commits Config.default storeThenLoad = true ∧
      storeThenLoad.exmem.opcode = .store ∧
      commits Config.default (advanceClock Config.default storeThenLoad) = true ∧
      (advanceClock Config.default storeThenLoad).exmem.opcode = .load ∧
      (advanceClock Config.default storeThenLoad).exmem.aluResult = storeThenLoad.exmem.aluResult := by decide

theorem witness_HaltInMemwbEndsTheRun :
    (withHalt.status = .running ∧ withHalt.memwb.opcode = .halt ∧ Config.default.haltExtraCycle = false) ∧
    (let c := { Config.default with haltExtraCycle := true }
     c.haltExtraCycle = true ∧ cycleFault c withHalt = none) ∧
    (let c := { Config.default with haltExtraCycle := true }
     let s := withHalt.setPc 65536#32
     s.status = .running ∧ s.memwb.opcode = .halt ∧ c.haltExtraCycle = true ∧
       cycleFault c s = some (.instructionFetchOutOfRange 65536#32)) := by decide

theorem witness_HaltActsOnlyFromMemwb :
    let s := inIfid 0x01800000#32 (inIdex 0x01800000#32 (inExmem 0x01800000#32 0#32 0#32 0#32 true State.reset))
    s.status = .running ∧ s.memwb.opcode ≠ .halt := by decide

theorem witness_CycleCapStopsTheRun :
    (State.reset.setCycles 20).status = .running ∧ (State.reset.setCycles 20).memwb.opcode ≠ .halt ∧
    ({ Config.default with cycleCap := some 20 }.cycleCap = some 20 ∧ 20 ≤ (State.reset.setCycles 20).cycles) ∧
    ({ Config.default with cycleCap := some 21 }.cycleCap = some 21 ∧ (State.reset.setCycles 20).cycles < 21) ∧
    Config.default.cycleCap = none := by decide

/-- Parameters whose two memories differ in size: 3 words of instruction memory, 2 of data memory. -/
def smallConfig : Config := { Config.default with imemWords := 3, dmemWords := 2 }

theorem witness_DataFaultIsTakenFirstAndCommitsNothing :
    (faultingStore.exmem.opcode = .store ∧ faultingStore.exmem.aluResult.toInt < 0 ∧
      faultingStore.status = .running ∧ faultingStore.memwb.opcode ≠ .halt ∧
      capReachedAt smallConfig faultingStore = false) ∧
    (let s := inExmem 0x00810006#32 2#32 0#32 0#32 false State.reset
     s.exmem.opcode = .load ∧ (smallConfig.dmemWords : Int) ≤ s.exmem.aluResult.toInt ∧ s.status = .running ∧
       s.memwb.opcode ≠ .halt ∧ capReachedAt smallConfig s = false) := by decide

theorem witness_FetchFaultIsTakenWhateverBecomesOfTheWord :
    (let s := stallAndFlush.setPc 0xFFFFFFFF#32
     (s.exmem.opcode ≠ .load ∧ s.exmem.opcode ≠ .store) ∧ s.pc.toInt < 0 ∧ s.status = .running ∧
       s.memwb.opcode ≠ .halt ∧ capReachedAt smallConfig s = false) ∧
    (let s := inExmem 0x00810006#32 1#32 0#32 0#32 false (State.reset.setPc 3#32)
     (0 ≤ s.exmem.aluResult.toInt ∧ s.exmem.aluResult.toInt < (smallConfig.dmemWords : Int)) ∧
       (smallConfig.imemWords : Int) ≤ s.pc.toInt ∧ s.status = .running ∧ s.memwb.opcode ≠ .halt ∧
       capReachedAt smallConfig s = false) := by decide

theorem witness_OnlyOutOfRangeAccessesFault :
    (faultingStore.status = .running ∧
      (advanceClock smallConfig faultingStore).status = .faulted (.dataAccessOutOfRange 0xFFFFFFFF#32) 5) ∧
    ((State.reset.setPc 3#32).status = .running ∧
      (advanceClock smallConfig (State.reset.setPc 3#32)).status = .faulted (.instructionFetchOutOfRange 3#32) 1) := by
  decide

theorem witness_StoppedBlockStaysFrozen : (haltRun State.reset).status ≠ .running := by decide

theorem witness_RangeCheckAdmitsExactlyTheIndices : Config.default.imemWords ≤ 2 ^ 31 ∧ 2 ^ 31 ≤ 2 ^ 31 := by decide

theorem witness_CounterCountsCommittedCycles :
    step State.reset = .next (advanceClock Config.default State.reset) ∧
      commits Config.default State.reset = true ∧ commits Config.default withHalt = false := ⟨rfl, by decide⟩

theorem witness_NothingDependsOnTheCounter :
    step faultingStore = .next (advanceClock Config.default faultingStore) ∧
      step { faultingStore with cycles := 9 } = .next (advanceClock Config.default { faultingStore with cycles := 9 }) :=
  ⟨rfl, rfl⟩

theorem witness_UnusedValuesReachNothing :
    (commits Config.default storeThenLoad = true ∧
      step storeThenLoad = .next (advanceClock Config.default storeThenLoad) ∧
      storeThenLoad.exmem.opcode ≠ .beq) ∧
    commits Config.default (withBeq true) = true ∧
      step (withBeq true) = .next (advanceClock Config.default (withBeq true)) ∧
      (withBeq true).exmem.opcode ∉ [Op.add, .nor, .load, .store] ∧
      (withBeq true).memwb.opcode ∉ [Op.add, .nor, .load] ∧
      (decodeFields (withBeq true).wbret.instr).op ∉ [Op.add, .nor, .load] := by
  refine ⟨⟨?_, rfl, ?_⟩, ?_, rfl, ?_, ?_, ?_⟩ <;> decide

theorem witness_ResetEdgeLoadsTheImageIntoBothMemories :
    (let c := { Config.default with imemWords := 2, dmemWords := 2 }
     ([1#32, 2#32].length ≤ c.imemWords ∧ [1#32, 2#32].length ≤ c.dmemWords) ∧
       ¬([1#32, 2#32, 3#32].length ≤ c.imemWords ∧ [1#32, 2#32, 3#32].length ≤ c.dmemWords)) := by decide

theorem witness_HostSeesTheStateAndTheFinalCounters :
    State.reset.status = .running ∧ (haltRun State.reset).status ≠ .running := by decide

theorem witness_StepKeepsTheLatchesConsistent :
    latchesConsistent forwarding = true ∧ step forwarding = .next (advanceClock Config.default forwarding) :=
  ⟨by decide, rfl⟩

theorem witness_StallFiresWithIfidInStep : latchesConsistent stalling = true ∧ loadUse stalling = true := by decide

theorem witness_StepKeepsTheMemoriesWellFormed :
    memoriesWf Config.default storeThenLoad = true ∧
      step storeThenLoad = .next (advanceClock Config.default storeThenLoad) := ⟨by decide, rfl⟩

/-- The program that only halts, as loaded (44_system.md R260). -/
def haltOnly : State :=
  (State.reset.setImem (memOfImage [0x01800000#32])).setDmem (memOfImage [0x01800000#32])

theorem witness_LoadedStatesAreConsistent : loadImage Config.default [0x01800000#32] = .next haltOnly := by rfl

theorem witness_PlacedWordIsFetchedNext :
    Memory.wf State.reset.imem = true ∧ commits Config.default State.reset = true ∧ loadUse State.reset = false ∧
      branchTaken State.reset = false := by decide

theorem witness_StepFromAnEmptyPipelineRunsTheInstruction :
    (State.reset.setPc 65535#32).status = .running ∧ inRange 65536 (State.reset.setPc 65535#32).pc = true ∧
      (State.reset.setPc 65535#32).ifid = IfId.bubble ∧ (State.reset.setPc 65535#32).idex = IdEx.bubble ∧
      (State.reset.setPc 65535#32).exmem = ExMem.bubble ∧ (State.reset.setPc 65535#32).memwb = MemWb.bubble ∧
      (State.reset.setPc 65535#32).wbret = WbRet.bubble := by decide

/-- The state a placed word runs in: `beq r0 r0 2` at index 0, a HALT, `lw r0 r1 -1`, `lw r0 r1 1`, each for its
clause, from reset. -/
theorem witness_PlacedInstructionTakesEffectInFiveSteps :
    (Memory.wf State.reset.imem = true ∧ State.reset.status = .running ∧ State.reset.pc.toNat + 4 < 65536 ∧
      State.reset.ifid = IfId.bubble ∧ State.reset.idex = IdEx.bubble ∧ State.reset.exmem = ExMem.bubble ∧
      State.reset.memwb = MemWb.bubble ∧ State.reset.wbret = WbRet.bubble) ∧
    redirects (decode 0x01000002#32) State.reset = true ∧
    (after (decode 0x01000002#32) (settle (State.reset.withFetchWord 32 0x01000002))).status = .running ∧
    commits Config.default (runClock Config.default 4 (State.reset.withFetchWord 32 0x00810001)) = true ∧
    (after (decode 0x01800000#32) (settle (State.reset.withFetchWord 32 0x01800000))).status = .halted ∧
    (after (decode 0x0081FFFF#32) (settle (State.reset.withFetchWord 32 0x0081FFFF))).status =
      .faulted (.dataAccessOutOfRange 0xFFFFFFFF#32) 1 := by decide

theorem witness_StepRunsTheFetchedInstruction :
    (latchesConsistent forwarding = true ∧ forwarding.status = .running ∧
      notFaulted (advanceClock Config.default forwarding) = true ∧ fetchesOnPath forwarding = true) ∧
    (latchesConsistent stalling = true ∧ stalling.status = .running ∧
      notFaulted (advanceClock Config.default stalling) = true ∧ fetchesOnPath stalling = false) := by decide

theorem witness_HaltedRunAgreesWithTheSequentialMachine :
    loadImage Config.default [0x01800000#32] = .next haltOnly ∧
      (runClock Config.default 5 haltOnly).status = .halted := ⟨rfl, by decide⟩

theorem witness_CycleCountOfAHaltedRun :
    loadImage Config.default [0x01800000#32] = .next haltOnly ∧
      (runClock Config.default 5 haltOnly).status = .halted ∧ (runClock Config.default 5 haltOnly).cycles = 4 :=
  ⟨rfl, by decide⟩

/-- `add r2 r3 r1` at the pc, then NOOPs. -/
def addThenNoops : State :=
  (regs 0 3 4).setImem (memOfImage [0x00130001#32, noopWord, noopWord, noopWord, 0x01FFFFFF#32])

theorem witness_AddReachesItsRegisterInTheFifthCycle :
    addThenNoops.status = .running ∧ addThenNoops.ifid = IfId.bubble ∧ addThenNoops.idex = IdEx.bubble ∧
      addThenNoops.exmem = ExMem.bubble ∧ addThenNoops.memwb = MemWb.bubble ∧ addThenNoops.wbret = WbRet.bubble ∧
      addThenNoops.pc.toNat + 4 < 65536 ∧
      decode (memRead addThenNoops.imem addThenNoops.pc.toNat) = .add 2#3 3#3 1#3 0#13 ∧
      ∀ i, 1 ≤ i → i < 5 → opcodeOf (memRead addThenNoops.imem (addThenNoops.pc.toNat + i)) = .noop := by
  refine ⟨by decide, by decide, by decide, by decide, by decide, by decide, by decide, by decide, ?_⟩
  intro i h1 h2
  interval_cases i <;> decide

end Sys2Proof.Tests
end

/-! PROOFS. The state family (10_state.md): what a cycle leaves in the latches and the registers, and the
statements about the state vector, reset and the output ports. -/

section
namespace Sys2Proof.Machine

/-! What a stage leaves in the control fields of its latch -/

section Latches
variable (s : State)

@[simp] theorem decodedLatch_instr : (decodedLatch s).instr = s.ifid.instr := rfl
@[simp] theorem decodedLatch_opcode : (decodedLatch s).opcode = opcodeOf s.ifid.instr := rfl
@[simp] theorem decodedLatch_dest : (decodedLatch s).dest = destOf (decodeFields s.ifid.instr) := rfl
@[simp] theorem decodedLatch_offset : (decodedLatch s).offset = sext16 (fieldC s.ifid.instr) := rfl
@[simp] theorem decodedLatch_readRegA :
    (decodedLatch s).readRegA = s.readReg (fieldA s.ifid.instr) := rfl
@[simp] theorem decodedLatch_readRegB :
    (decodedLatch s).readRegB = s.readReg (fieldB s.ifid.instr) := rfl
@[simp] theorem executedLatch_instr : (executedLatch s).instr = s.idex.instr := rfl
@[simp] theorem executedLatch_opcode : (executedLatch s).opcode = s.idex.opcode := rfl
@[simp] theorem executedLatch_dest : (executedLatch s).dest = s.idex.dest := rfl
@[simp] theorem accessedLatch_instr : (accessedLatch s).instr = s.exmem.instr := rfl
@[simp] theorem accessedLatch_opcode : (accessedLatch s).opcode = s.exmem.opcode := rfl
@[simp] theorem accessedLatch_dest : (accessedLatch s).dest = s.exmem.dest := rfl
@[simp] theorem retiredLatch_instr : (retiredLatch s).instr = s.memwb.instr := rfl
@[simp] theorem retiredLatch_writeData : (retiredLatch s).writeData = s.memwb.writeData := rfl
@[simp] theorem retiredLatch_dest : (retiredLatch s).dest = s.memwb.dest := rfl

end Latches

/-! The tests of the controller as propositions -/

theorem branchTaken_iff (s : State) :
    branchTaken s = true ↔ s.exmem.opcode = .beq ∧ s.exmem.eq = true := by
  simp [branchTaken]

/-- The load-use test as a proposition (40_pipeline.md R150). -/
theorem loadUse_iff (s : State) :
    loadUse s = true ↔ s.idex.opcode = .load ∧ isUser (opcodeOf s.ifid.instr) = true ∧
      (s.idex.dest = some (fieldA s.ifid.instr) ∨
        (opcodeOf s.ifid.instr ≠ .load ∧ s.idex.dest = some (fieldB s.ifid.instr))) := by
  simp only [loadUse, Bool.and_eq_true, Bool.or_eq_true, decide_eq_true_eq, destIs_iff, and_assoc]
  rfl

/-- The rollback of a stall gives the snapshot's pc back, at the wrap too (10_state.md R37). -/
@[simp] theorem pc_rollback (v : Word) : v + 1#32 - 1#32 = v := BitVec.add_sub_cancel v 1#32

/-! The next state of a cycle, read by what it can be -/

/-- All a cycle can leave in IDEX. -/
theorem nextState_idex_cases (s : State) :
    (nextState s).idex = IdEx.bubble ∨
      (branchTaken s = false ∧ loadUse s = false ∧ (nextState s).idex = decodedLatch s) := by
  cases hb : branchTaken s <;> cases hl : loadUse s <;> simp [nextState_idex, hb, hl]

/-- All a cycle can leave in EXMEM. -/
theorem nextState_exmem_cases (s : State) :
    (nextState s).exmem = ExMem.bubble ∨ (nextState s).exmem = executedLatch s := by
  cases hb : branchTaken s <;> simp [nextState_exmem, hb]

/-- A word that uses operands is in IDEX only if Decode put it there, with neither stall nor flush. -/
theorem nextState_idex_of_isUser {s : State} (h : isUser (nextState s).idex.opcode = true) :
    branchTaken s = false ∧ loadUse s = false ∧ (nextState s).idex = decodedLatch s := by
  rcases nextState_idex_cases s with hi | hi
  · rw [hi] at h
    cases h
  · exact hi

/-- A LOAD is in EXMEM only if Execute put it there. -/
theorem nextState_exmem_of_load {s : State} (h : (nextState s).exmem.opcode = .load) :
    (nextState s).exmem = executedLatch s := by
  rcases nextState_exmem_cases s with he | he
  · rw [he] at h
    cases h
  · exact he

/-- All a cycle can do to a register read: the value Writeback writes, or the value from before
(10_state.md R33, 40_pipeline.md R174). -/
theorem readReg_nextState (s : State) (r : RegIdx) :
    (nextState s).readReg r =
      if isWriter s.memwb.opcode = true ∧ s.memwb.dest = some r then s.memwb.writeData else s.readReg r := by
  cases hw : isWriter s.memwb.opcode with
  | false => simpa using State.readReg_congr (by simp [nextState_reg, hw]) r
  | true =>
    have hreg : (nextState s).reg = (s.writeDest s.memwb.dest s.memwb.writeData).reg := by
      simp [nextState_reg, hw]
    rw [State.readReg_congr hreg, State.readReg_writeDest]
    simp [destIs]

/-! An edge with the default parameters, by whether it commits -/

/-- A stopped block stays as it is (10_state.md R66). -/
theorem advanceClock_of_stopped {c : Config} {s : State} (h : s.status ≠ .running) : advanceClock c s = s := by
  simp [advanceClock, h]

/-- A HALT in MEMWB ends the run in place of a cycle (40_pipeline.md R190). -/
theorem advanceClock_of_halt {s : State} (hs : s.status = .running) (hm : s.memwb.opcode = .halt) :
    advanceClock Config.default s = haltRun s := by
  simp [advanceClock, hs, hm]

/-- A cycle that faults is recorded in the status (60_exceptions.md R303). -/
theorem advanceClock_of_fault {s : State} {f : Fault} (hs : s.status = .running) (hm : s.memwb.opcode ≠ .halt)
    (hf : cycleFault Config.default s = some f) : advanceClock Config.default s = takeFault f s := by
  simp [advanceClock, commitCycle, cycle, hs, hm, hf]

/-- Everything an edge with the default parameters can find, one case for each rule above. -/
theorem edge_cases (s : State) :
    s.status ≠ .running ∨ (s.status = .running ∧ s.memwb.opcode = .halt) ∨
    (s.status = .running ∧ s.memwb.opcode ≠ .halt ∧ ∃ f, cycleFault Config.default s = some f) ∨
    commits Config.default s = true := by
  by_cases hs : s.status = .running
  · by_cases hm : s.memwb.opcode = .halt
    · exact .inr (.inl ⟨hs, hm⟩)
    · cases hf : cycleFault Config.default s with
      | some f => exact .inr (.inr (.inl ⟨hs, hm, f, rfl⟩))
      | none => exact .inr (.inr (.inr ((commits_iff _ s).2 ⟨hs, hm, capReachedAt_default s, hf⟩)))
  · exact .inl hs

/-- An edge that commits no cycle changes the status at most. -/
theorem advanceClock_of_not_commits {s : State} (h : commits Config.default s ≠ true) :
    ∃ st, advanceClock Config.default s = s.setStatus st := by
  rcases edge_cases s with hs | ⟨hs, hm⟩ | ⟨hs, hm, f, hf⟩ | hc
  · exact ⟨s.status, advanceClock_of_stopped hs⟩
  · exact ⟨_, advanceClock_of_halt hs hm⟩
  · exact ⟨_, advanceClock_of_fault hs hm hf⟩
  · exact absurd hc h

/-! The latch invariants -/

/-- With no stall, no source of the word in IFID is the destination of a LOAD in IDEX. -/
theorem sources_ne_dest_of_not_loadUse {s : State} (hl : loadUse s = false) (ho : s.idex.opcode = .load)
    (hu : isUser (opcodeOf s.ifid.instr) = true) :
    s.idex.dest ≠ some (fieldA s.ifid.instr) ∧
      (opcodeOf s.ifid.instr ≠ .load → s.idex.dest ≠ some (fieldB s.ifid.instr)) := by
  have hn : ¬loadUse s = true := by simp [hl]
  rw [loadUse_iff] at hn
  exact ⟨fun ha => hn ⟨ho, hu, .inl ha⟩, fun hx hb => hn ⟨ho, hu, .inr ⟨hx, hb⟩⟩⟩

/-- A register Decode reads keeps its value over the cycle, or WBRET says it was written (40_pipeline.md R163). -/
theorem readReg_current (s : State) (r : RegIdx) :
    s.readReg r = (nextState s).readReg r ∨ (nextState s).wbret.dest = some r := by
  by_cases hd : s.memwb.dest = some r
  · exact .inr (by simpa using hd)
  · exact .inl (by simp [readReg_nextState, hd])

/-- A committed cycle keeps the latch invariants: each latch gets a bubble or its predecessor's word. -/
theorem LatchFacts.nextState {s : State} (h : LatchFacts s) : LatchFacts (nextState s) where
  idexOpcode := by
    rcases nextState_idex_cases s with hi | ⟨-, -, hi⟩ <;> simp [hi, IdEx.bubble]
  exmemOpcode := by
    rcases nextState_exmem_cases s with he | he
    · simp [he, ExMem.bubble]
    · simpa [he] using h.idexOpcode
  memwbOpcode := by simpa using h.exmemOpcode
  idexDest := by
    rcases nextState_idex_cases s with hi | ⟨-, -, hi⟩ <;> simp [hi, IdEx.bubble]
  exmemDest := by
    rcases nextState_exmem_cases s with he | he
    · simp [he, ExMem.bubble]
    · simpa [he] using h.idexDest
  memwbDest := by simpa using h.exmemDest
  wbretDest := by simpa using h.memwbDest
  loadInStep ho := by
    obtain ⟨hb, hl, -⟩ := nextState_idex_of_isUser (s := s) (by rw [ho]; rfl)
    simp [nextState_ifid, nextState_pc, hb, hl]
  offsetIs := by
    rcases nextState_idex_cases s with hi | ⟨-, -, hi⟩
    · rw [hi]; rfl
    · simp [hi]
  retiredHeld r hr := by
    have hd : s.memwb.dest = some r := by simpa using hr
    simp [readReg_nextState, hd, h.writer_of_memwbDest hd]
  currentA hu := by
    obtain ⟨-, -, hi⟩ := nextState_idex_of_isUser hu
    simpa only [hi, decodedLatch_readRegA, decodedLatch_instr] using readReg_current s (fieldA s.ifid.instr)
  currentB hu := by
    obtain ⟨-, -, hi⟩ := nextState_idex_of_isUser hu
    simpa only [hi, decodedLatch_readRegB, decodedLatch_instr] using readReg_current s (fieldB s.ifid.instr)
  separateA ho hu := by
    obtain ⟨-, hl, hi⟩ := nextState_idex_of_isUser hu
    have he := nextState_exmem_of_load ho
    simp only [he, hi, executedLatch_opcode, executedLatch_dest, decodedLatch_opcode, decodedLatch_instr] at ho hu ⊢
    exact (sources_ne_dest_of_not_loadUse hl ho hu).1
  separateB ho hu hx := by
    obtain ⟨-, hl, hi⟩ := nextState_idex_of_isUser hu
    have he := nextState_exmem_of_load ho
    simp only [he, hi, executedLatch_opcode, executedLatch_dest, decodedLatch_opcode, decodedLatch_instr]
      at ho hu hx ⊢
    exact (sources_ne_dest_of_not_loadUse hl ho hu).2 hx

/-- Every edge with the default parameters keeps the latch invariants, whether it commits or not. -/
theorem LatchFacts.advanceClock {s : State} (h : LatchFacts s) : LatchFacts (advanceClock Config.default s) := by
  by_cases hc : commits Config.default s = true
  · rw [advanceClock_of_commits hc]
    exact h.nextState
  · obtain ⟨st, hst⟩ := advanceClock_of_not_commits hc
    rw [hst]
    exact h.congr rfl rfl rfl rfl rfl rfl rfl

/-- The bubbles and the zero registers of reset have the latch invariants (10_state.md R51, R67). -/
theorem latchFacts_reset : LatchFacts State.reset := (latchesConsistent_iff State.reset).1 (by decide)

/-! The counter (10_state.md R42) -/

section Counter
variable (s : State) (k : Nat)

theorem State.writeDest_setCycles (d : Dest) (v : Word) :
    (s.setCycles k).writeDest d v = (s.writeDest d v).setCycles k := by
  cases d <;> rfl

/-- No stage reads the counter. -/
theorem nextState_setCycles : nextState (s.setCycles k) = (nextState s).setCycles (k + 1) := by
  rw [nextState_eq s, nextState_eq (s.setCycles k), State.writeDest_setCycles]
  rfl

/-- No fault depends on the counter. -/
theorem cycleFault_setCycles (c : Config) : cycleFault c (s.setCycles k) = cycleFault c s := rfl

/-- Without a cap, whether an edge commits does not depend on the counter. -/
theorem commits_setCycles : commits Config.default (s.setCycles k) = commits Config.default s := rfl

end Counter

/-! Reset and the image load -/

/-- All an image load can do: load the image that fits into both memories of the reset state, or refuse. -/
theorem loadImage_cases (c : Config) (img : List Word) :
    ((img.length ≤ c.imemWords ∧ img.length ≤ c.dmemWords) ∧
      loadImage c img = .next ((State.reset.setImem (memOfImage img)).setDmem (memOfImage img))) ∨
    (¬(img.length ≤ c.imemWords ∧ img.length ≤ c.dmemWords) ∧
      loadImage c img = .refused (.imageTooLong img.length)) := by
  by_cases h : img.length ≤ c.imemWords ∧ img.length ≤ c.dmemWords <;> simp [loadImage, h]

/-- A loaded memory reads as the image, and 0 beyond it (10_state.md R41). -/
theorem memRead_memOfImage (img : List Word) (k : Nat) : memRead (memOfImage img) k = img.getD k 0#32 := by
  simpa [memOfImage] using memRead_memOfWordsFrom img 0 k

/-- The loaded memories are in form and inside their spaces when the image fits. -/
theorem memoriesWf_of_image {c : Config} {img : List Word} {s : State} (hi : s.imem = memOfImage img)
    (hd : s.dmem = memOfImage img) (h : img.length ≤ c.imemWords ∧ img.length ≤ c.dmemWords) :
    memoriesWf c s = true := by
  simp [memoriesWf, hi, hd, memOfImage_wf, memOfImage_within h.1, memOfImage_within h.2]

theorem readReg_reset (r : RegIdx) : State.reset.readReg r = 0#32 := by
  have hreg : State.reset.reg = Vector.replicate 8 0#32 := rfl
  simp [State.readReg, hreg]

/-! The obligations -/

/-- Settles O49: the invariants as `LatchFacts` are kept by every edge. -/
theorem stepKeepsTheLatchesConsistent : Obligations.StepKeepsTheLatchesConsistent := by
  intro s n h hstep
  cases hstep
  exact (latchesConsistent_iff _).2 ((latchesConsistent_iff s).1 h).advanceClock

/-- Settles O29, by what a cycle does to a register read. -/
theorem registersAreWrittenByWritebackOnly : Obligations.RegistersAreWrittenByWritebackOnly := by
  intro s hc
  refine ⟨nextState s, step_of_commits hc, fun r => ?_⟩
  simp only [readReg_nextState, isWriter_iff]

/-- Settles O40, by induction on the number of edges. -/
theorem stoppedBlockStaysFrozen : Obligations.StoppedBlockStaysFrozen := by
  intro c k s hs
  induction k with
  | zero => rfl
  | succ k ih => rw [runClock_succ, advanceClock_of_stopped hs, ih]

/-- Settles O42: an edge that commits none leaves all but the status. -/
theorem counterCountsCommittedCycles : Obligations.CounterCountsCommittedCycles := by
  intro s n hstep
  cases hstep
  by_cases hc : commits Config.default s = true
  · rw [advanceClock_of_commits hc, if_pos hc, nextState_cycles]
  · obtain ⟨st, hst⟩ := advanceClock_of_not_commits hc
    rw [hst, if_neg hc, State.setStatus_cycles]

/-- Settles O43: what an edge finds is the same whatever the counter, and so is what it then does. -/
theorem nothingDependsOnTheCounter : Obligations.NothingDependsOnTheCounter := by
  intro s n n' k hstep hstep'
  change step (s.setCycles k) = .next n' at hstep'
  cases hstep
  cases hstep'
  rcases edge_cases s with hs | ⟨hs, hm⟩ | ⟨hs, hm, f, hf⟩ | hc
  · rw [advanceClock_of_stopped hs, advanceClock_of_stopped (s := s.setCycles k) hs]
    exact ⟨rfl, .inl rfl⟩
  · rw [advanceClock_of_halt hs hm, advanceClock_of_halt (s := s.setCycles k) hs hm]
    exact ⟨rfl, .inl rfl⟩
  · rw [advanceClock_of_fault hs hm hf,
      advanceClock_of_fault (s := s.setCycles k) hs hm ((cycleFault_setCycles s k _).trans hf)]
    exact ⟨rfl, .inr ⟨f, hs, rfl, rfl⟩⟩
  · rw [advanceClock_of_commits hc, advanceClock_of_commits ((commits_setCycles s k).trans hc),
      nextState_setCycles]
    exact ⟨rfl, .inl rfl⟩

/-- Settles O47, by the two cases of an image load. -/
theorem resetEdgeLoadsTheImageIntoBothMemories : Obligations.ResetEdgeLoadsTheImageIntoBothMemories := by
  intro c img s
  rcases loadImage_cases c img with ⟨hfit, hload⟩ | ⟨hfit, hload⟩
  · refine ⟨fun _ => ⟨_, hload, fun k => ?_, rfl⟩, fun hn => absurd hfit hn⟩
    exact ⟨memRead_memOfImage img k, memRead_memOfImage img k⟩
  · exact ⟨fun hf => absurd hf hfit, fun _ => hload⟩

/-- Settles O52: a load changes the memories of the reset state only. -/
theorem loadedStatesAreConsistent : Obligations.LoadedStatesAreConsistent := by
  intro c img s hs
  rcases loadImage_cases c img with ⟨hfit, hload⟩ | ⟨-, hload⟩
  · cases hload.symm.trans hs
    have hl : LatchFacts ((State.reset.setImem (memOfImage img)).setDmem (memOfImage img)) :=
      latchFacts_reset.congr rfl rfl rfl rfl rfl rfl rfl
    exact ⟨(latchesConsistent_iff _).2 hl, memoriesWf_of_image rfl rfl hfit⟩
  · cases hload.symm.trans hs

/-- Settles O17, by the pc of the next state. -/
theorem pcIsWrittenInPrecedenceOrder : Obligations.PcIsWrittenInPrecedenceOrder := by
  intro s hc
  refine ⟨nextState s, step_of_commits hc, ?_⟩
  simp only [nextState_pc, branchTaken_iff, pc_rollback]

/-- Settles O46: every field of the reset state evaluates to its value, the registers by `readReg_reset`. -/
theorem resetValuesAreTheSpecs : Obligations.ResetValuesAreTheSpecs :=
  ⟨rfl, rfl, readReg_reset, fun _ => ⟨rfl, rfl⟩, rfl, rfl, rfl, rfl, rfl, rfl⟩

/-- Settles O48, by the forms of a status. -/
theorem hostSeesTheStateAndTheFinalCounters : Obligations.HostSeesTheStateAndTheFinalCounters := by
  intro s
  refine ⟨rfl, rfl, rfl, ?_, fun hs => ?_, fun hs => ?_⟩
  · change s.status.code = _
    cases s.status with
    | faulted f n => cases f <;> rfl
    | _ => rfl
  · simp [finalReport, hs]
  · simp [finalReport, hs]

/-- Settles O50: only a LOAD in IDEX stalls, and it was decoded in step with Fetch. -/
theorem stallFiresWithIfidInStep : Obligations.StallFiresWithIfidInStep := by
  intro s h
  cases hl : loadUse s with
  | false => simp [stallHoldsIfid, hl]
  | true =>
    have hload : s.idex.opcode = .load := ((loadUse_iff s).1 hl).1
    simp [stallHoldsIfid, ((latchesConsistent_iff s).1 h).loadInStep hload]

/-- Settles O53: the reset state is the one the empty image is loaded into. -/
theorem resetStateIsConsistent : Obligations.ResetStateIsConsistent :=
  loadedStatesAreConsistent Config.default [] State.reset rfl

end Sys2Proof.Machine
end

/-! PROOFS. The memory family (20_memory.md): the range check, what a cycle does to the two memories, and the
statements about stores, loads and the form of the memories. -/

section
namespace Sys2Proof.Machine

/-! The range check -/

/-- In a space of at most 2^31 words the signed range check is the comparison of the index with the size: an
address with its top bit set is negative, and its index lies past every such space (20_memory.md R86, D7, D10). -/
theorem inRange_iff_toNat_lt {size : Nat} {a : Word} (hs : size ≤ 2 ^ 31) :
    inRange size a = true ↔ a.toNat < size := by
  refine ⟨toNat_lt_of_inRange, fun ha => (inRange_iff size a).2 ?_⟩
  have hi : a.toInt = a.toNat := BitVec.toInt_eq_toNat_of_lt (by omega)
  omega

/-- A STORE whose cycle does not fault has its address inside data memory (40_pipeline.md R173). -/
theorem inRange_of_store {c : Config} {s : State} (hf : cycleFault c s = none) (ho : s.exmem.opcode = .store) :
    inRange c.dmemWords s.exmem.aluResult = true := by
  have ha : accessesData s.exmem.opcode = true := by rw [ho]; rfl
  rcases cycleFault_cases c s with ⟨-, -, h⟩ | ⟨-, -, h⟩ | ⟨hr, -, -⟩
  · cases h.symm.trans hf
  · cases h.symm.trans hf
  · exact hr.resolve_left (by simp [ha])

/-! What a cycle does to data memory -/

/-- A cycle with no STORE in the Memory stage leaves data memory. -/
theorem nextState_dmem_of_not_store {s : State} (ho : s.exmem.opcode ≠ .store) : (nextState s).dmem = s.dmem := by
  rw [nextState_dmem, if_neg ho]

/-- A cycle with a STORE in the Memory stage makes one write (40_pipeline.md R173). -/
theorem nextState_dmem_of_store {s : State} (ho : s.exmem.opcode = .store) :
    (nextState s).dmem = memWrite s.dmem s.exmem.aluResult.toNat s.exmem.readRegB := by
  rw [nextState_dmem, if_pos ho]

/-- All a cycle can do to a read of data memory: the word a STORE writes, at its address only (20_memory.md R94). -/
theorem memRead_nextState_dmem {s : State} (h : Memory.wf s.dmem = true) (k : Nat) :
    memRead (nextState s).dmem k =
      if s.exmem.opcode = .store ∧ k = s.exmem.aluResult.toNat then s.exmem.readRegB else memRead s.dmem k := by
  by_cases ho : s.exmem.opcode = .store
  · rw [nextState_dmem_of_store ho, memRead_memWrite h]
    simp [ho, eq_comm]
  · rw [nextState_dmem_of_not_store ho, if_neg fun hk => ho hk.1]

/-- A LOAD in the Memory stage passes on the word it reads (40_pipeline.md R172). -/
theorem accessedLatch_writeData_of_load {s : State} (ho : s.exmem.opcode = .load) :
    (accessedLatch s).writeData = memRead s.dmem s.exmem.aluResult.toNat := if_pos ho

/-! Instruction memory (20_memory.md R91) -/

/-- The extra cycle of `HALT_EXTRA_CYCLE` leaves instruction memory, whether it faults or not. -/
@[simp] theorem haltAfterCycle_imem (c : Config) (s : State) : (haltAfterCycle c s).imem = s.imem := by
  rcases cycle_cases c s with ⟨f, -, hc⟩ | ⟨-, hc⟩ <;> simp [haltAfterCycle, hc]

/-- No clock edge writes instruction memory, with any parameters. -/
@[simp] theorem advanceClock_imem (c : Config) (s : State) : (advanceClock c s).imem = s.imem := by
  rcases advanceClock_cases c s with
    ⟨-, h⟩ | ⟨-, -, -, h⟩ | ⟨-, -, -, h⟩ | ⟨-, -, -, h⟩ | ⟨-, -, -, f, -, h⟩ | ⟨-, -, -, -, h⟩ <;> simp [h]

/-! The form of the memories -/

/-- The form of the memories as a proposition. -/
theorem memoriesWf_iff (c : Config) (s : State) :
    memoriesWf c s = true ↔ Memory.wf s.imem = true ∧ Memory.wf s.dmem = true ∧
      Memory.within c.imemWords s.imem = true ∧ Memory.within c.dmemWords s.dmem = true := by
  simp [memoriesWf, and_assoc]

/-- A cycle that does not fault keeps both memories in form: its one write is in range. -/
theorem memoriesWf_nextState {c : Config} {s : State} (h : memoriesWf c s = true) (hf : cycleFault c s = none) :
    memoriesWf c (nextState s) = true := by
  obtain ⟨hiw, hdw, hib, hdb⟩ := (memoriesWf_iff c s).1 h
  rw [memoriesWf_iff, nextState_imem]
  by_cases ho : s.exmem.opcode = .store
  · have ha := toNat_lt_of_inRange (inRange_of_store hf ho)
    rw [nextState_dmem_of_store ho]
    exact ⟨hiw, memWrite_wf hdw _ _, hib, memWrite_within hdb ha _⟩
  · rw [nextState_dmem_of_not_store ho]
    exact ⟨hiw, hdw, hib, hdb⟩

/-! The obligations -/

/-- Settles O26, by what a cycle does to a read of data memory. -/
theorem dataMemoryIsWrittenByTheMemoryStageOnly : Obligations.DataMemoryIsWrittenByTheMemoryStageOnly := by
  intro s hwf hc
  exact ⟨nextState s, step_of_commits hc, nextState_imem s, memRead_nextState_dmem hwf⟩

/-- Settles O33: the STORE's word is in data memory when the next cycle reads it. -/
theorem loadAfterStoreReadsTheStoredWord : Obligations.LoadAfterStoreReadsTheStoredWord := by
  intro s hwf hc hstore
  refine ⟨nextState s, step_of_commits hc, fun hc' hload haddr => ?_⟩
  refine ⟨nextState (nextState s), step_of_commits hc', ?_⟩
  calc (nextState (nextState s)).memwb.writeData
      = memRead (nextState s).dmem s.exmem.aluResult.toNat := by
        rw [nextState_memwb, accessedLatch_writeData_of_load hload, haddr]
    _ = s.exmem.readRegB := by rw [memRead_nextState_dmem hwf, if_pos ⟨hstore, rfl⟩]

/-- Settles O41: below 2^31 an index is its own signed reading. -/
theorem rangeCheckAdmitsExactlyTheIndices : Obligations.RangeCheckAdmitsExactlyTheIndices :=
  fun size a hs => ⟨inRange_iff_toNat_lt hs, inRange_iff size a⟩

/-- Settles O45, by induction on the number of edges. -/
theorem instructionMemoryNeverChanges : Obligations.InstructionMemoryNeverChanges := by
  intro c k s
  induction k with
  | zero => rfl
  | succ k ih => rw [runClock_succ_last, advanceClock_imem, ih]

/-- Settles O51: an edge that commits no cycle changes the status at most. -/
theorem stepKeepsTheMemoriesWellFormed : Obligations.StepKeepsTheMemoriesWellFormed := by
  intro s n h hstep
  cases hstep
  by_cases hc : commits Config.default s = true
  · obtain ⟨-, -, -, hf⟩ := (commits_iff _ s).1 hc
    rw [advanceClock_of_commits hc]
    exact memoriesWf_nextState h hf
  · obtain ⟨st, hst⟩ := advanceClock_of_not_commits hc
    rw [hst]
    exact h

end Sys2Proof.Machine
end

/-! PROOFS. The encoding family (30_encoding.md): the fields of a packed word, a word put together again from its
fields, the two round trips, and the statements about the decoder. -/

section
namespace Sys2Proof

/-! The fields of a packed word (30_encoding.md R100) -/

section Packed
variable (op a b : BitVec 3) (c : BitVec 16)

@[simp] theorem fieldA_packFields : fieldA (packFields op a b c) = a :=
  (extractLsb'_append_lower (k := 3) (0#7 ++ op) (a ++ b ++ c) 19 (by omega)).trans
    ((extractLsb'_append_upper (k := 3) (a ++ b) c 3).trans BitVec.extractLsb'_append_eq_left)

@[simp] theorem fieldB_packFields : fieldB (packFields op a b c) = b :=
  (extractLsb'_append_lower (k := 3) (0#7 ++ op) (a ++ b ++ c) 16 (by omega)).trans
    ((extractLsb'_append_upper (k := 3) (a ++ b) c 0).trans BitVec.extractLsb'_append_eq_right)

@[simp] theorem fieldC_packFields : fieldC (packFields op a b c) = c :=
  (extractLsb'_append_lower (k := 16) (0#7 ++ op) (a ++ b ++ c) 0 (by omega)).trans
    BitVec.extractLsb'_append_eq_right

end Packed

/-- The ignored bits of an ADD or NOR are the upper 13 bits of field C (30_encoding.md R107). -/
theorem fieldC_high (w : Word) : (fieldC w).extractLsb' 3 13 = w.extractLsb' 3 13 :=
  BitVec.extractLsb'_extractLsb'_of_le (by omega)

/-! A word put together again from its fields -/

/-- The 22 bits below the opcode are the fields A, B and C. -/
theorem fieldA_append_fieldB_append_fieldC (w : Word) :
    fieldA w ++ fieldB w ++ fieldC w = w.extractLsb' 0 22 := by
  have hab : fieldA w ++ fieldB w = w.extractLsb' 16 6 := BitVec.extractLsb'_append_extractLsb'_eq_extractLsb' rfl
  rw [hab]
  exact BitVec.extractLsb'_append_extractLsb'_eq_extractLsb' rfl

/-- Field C is the ignored bits of an ADD or NOR over its destination. -/
theorem fieldC_eq_append (w : Word) : w.extractLsb' 3 13 ++ w.extractLsb' 0 3 = fieldC w :=
  BitVec.extractLsb'_append_extractLsb'_eq_extractLsb' rfl

/-- A word is its extension field over its other 25 bits. -/
theorem fieldX_append_low (w : Word) : fieldX w ++ w.extractLsb' 0 25 = w :=
  (BitVec.extractLsb'_append_extractLsb'_eq_extractLsb' rfl).trans BitVec.extractLsb'_eq_self

/-- A word is its extension field, its opcode field and its other 22 bits. -/
theorem fieldX_append_fieldOp_append_low (w : Word) : fieldX w ++ fieldOp w ++ w.extractLsb' 0 22 = w := by
  have hxo : fieldX w ++ fieldOp w = w.extractLsb' 22 10 := BitVec.extractLsb'_append_extractLsb'_eq_extractLsb' rfl
  rw [hxo]
  exact (BitVec.extractLsb'_append_extractLsb'_eq_extractLsb' rfl).trans BitVec.extractLsb'_eq_self

/-! The opcode and the bits it is read from (30_encoding.md R104, R106) -/

/-- A word is INERT exactly when a bit of its extension field is set. -/
theorem opcodeOf_eq_inert_iff (w : Word) : opcodeOf w = .inert ↔ fieldX w ≠ 0#7 := by
  have htable : ∀ k : BitVec 3, opcodeTable[k.toNat]'k.isLt ≠ .inert := by decide
  by_cases hx : fieldX w = 0#7
  · simp [opcodeOf, hx, htable]
  · simp [opcodeOf, hx]

/-- The 4-bit code of the opcode in terms of the two fields: the opcode field, or 8 (10_state.md R43). -/
theorem code_opcodeOf (w : Word) :
    (opcodeOf w).code = if fieldX w = 0#7 then 0#1 ++ fieldOp w else 8#4 := by
  have htable : ∀ k : BitVec 3, (opcodeTable[k.toNat]'k.isLt).code = 0#1 ++ k := by decide
  by_cases hx : fieldX w = 0#7
  · simp only [opcodeOf, if_pos hx, htable]
  · simp only [opcodeOf, if_neg hx, Op.code]

/-- A word whose opcode has the code `k`, below 8, has a zero extension field and `k` in its opcode field. -/
theorem fieldX_fieldOp_of_code {w : Word} {k : BitVec 3} (hk : (opcodeOf w).code = 0#1 ++ k) :
    fieldX w = 0#7 ∧ fieldOp w = k := by
  have hinert : ∀ k : BitVec 3, 8#4 ≠ 0#1 ++ k := by decide
  rw [code_opcodeOf] at hk
  by_cases hx : fieldX w = 0#7
  · rw [if_pos hx] at hk
    exact ⟨hx, (BitVec.append_right_inj 0#1).1 hk⟩
  · rw [if_neg hx] at hk
    exact absurd hk (hinert k)

/-- A word that is not INERT is zeros, its opcode's bits, and its other 22 bits. -/
theorem append_low_of_code {w : Word} {k : BitVec 3} (hk : (opcodeOf w).code = 0#1 ++ k) :
    0#7 ++ k ++ w.extractLsb' 0 22 = w := by
  obtain ⟨hx, ho⟩ := fieldX_fieldOp_of_code hk
  have hw := fieldX_append_fieldOp_append_low w
  rwa [hx, ho] at hw

/-- A word that is not INERT is the packing of its fields. -/
theorem packFields_of_code {w : Word} {k : BitVec 3} (hk : (opcodeOf w).code = 0#1 ++ k) :
    packFields k (fieldA w) (fieldB w) (fieldC w) = w := by
  rw [packFields, fieldA_append_fieldB_append_fieldC]
  exact append_low_of_code hk

/-! The two round trips -/

/-- The family `Laws.EncodesItsOpcode` over every instruction. -/
theorem opcodeOf_encode {i : Instr} (h : i.wf = true) : opcodeOf (encode i) = i.op := by
  cases i with
  | add a b d x => exact Laws.EncodesItsOpcode.add a b d x h
  | nor a b d x => exact Laws.EncodesItsOpcode.nor a b d x h
  | lw a b c => exact Laws.EncodesItsOpcode.lw a b c h
  | sw a b c => exact Laws.EncodesItsOpcode.sw a b c h
  | beq a b c => exact Laws.EncodesItsOpcode.beq a b c h
  | jalr a b x => exact Laws.EncodesItsOpcode.jalr a b x h
  | halt x => exact Laws.EncodesItsOpcode.halt x h
  | noop x => exact Laws.EncodesItsOpcode.noop x h
  | inert ext x => exact Laws.EncodesItsOpcode.inert ext x h

/-- The opcode of the encoding selects the decoder's case; each of its fields is then read back. -/
theorem decode_encode {i : Instr} (h : i.wf = true) : decode (encode i) = i := by
  rw [decode_of_op, opcodeOf_encode h]
  cases i with
  | add | nor =>
    simp only [Instr.op, encode, ← fieldC_high, fieldA_packFields, fieldB_packFields, fieldC_packFields,
      BitVec.extractLsb'_append_eq_left, BitVec.extractLsb'_append_eq_right]
  | lw | sw | beq | jalr => simp only [Instr.op, encode, fieldA_packFields, fieldB_packFields, fieldC_packFields]
  | halt x => exact congrArg Instr.halt BitVec.extractLsb'_append_eq_right
  | noop x => exact congrArg Instr.noop BitVec.extractLsb'_append_eq_right
  | inert ext x => exact congrArg₂ Instr.inert BitVec.extractLsb'_append_eq_left BitVec.extractLsb'_append_eq_right

/-- The one check of well-formedness, of an INERT word's extension field, is the decoder's own test. -/
theorem decode_wf (w : Word) : (decode w).wf = true := by
  cases ho : opcodeOf w with
  | inert => simpa [decode, ho, Instr.wf] using (opcodeOf_eq_inert_iff w).1 ho
  | _ => simp only [decode, ho, Instr.wf]

/-- The opcode of the word selects the encoder's case, which puts the word's own fields together again. -/
theorem encode_decode (w : Word) : encode (decode w) = w := by
  cases ho : opcodeOf w with
  | add | nor =>
    simp only [decode, ho, encode, fieldC_eq_append]
    exact packFields_of_code (by rw [ho]; rfl)
  | load | store | beq | jalr =>
    simp only [decode, ho, encode]
    exact packFields_of_code (by rw [ho]; rfl)
  | halt | noop =>
    simp only [decode, ho, encode]
    exact append_low_of_code (by rw [ho]; rfl)
  | inert =>
    simp only [decode, ho, encode]
    exact fieldX_append_low w

/-! The fields as arithmetic on the word -/

/-- A field of `len` bits from bit `start` is a quotient and a remainder. -/
theorem toNat_field (w : Word) (start len : Nat) :
    (w.extractLsb' start len).toNat = w.toNat / 2 ^ start % 2 ^ len := by
  rw [BitVec.extractLsb'_toNat, Nat.shiftRight_eq_div_pow]

theorem toNat_fieldC (w : Word) : (fieldC w).toNat = w.toNat % 2 ^ 16 := by
  rw [fieldC, toNat_field, Nat.pow_zero, Nat.div_one]

/-- The bits 31:22 as a number are the extension field over the opcode field. -/
theorem toNat_div_eq_fieldX_fieldOp (w : Word) :
    w.toNat / 2 ^ 22 = 8 * (fieldX w).toNat + (fieldOp w).toNat := by
  have hx : (fieldX w).toNat = w.toNat / 2 ^ 25 % 2 ^ 7 := toNat_field w 25 7
  have ho : (fieldOp w).toNat = w.toNat / 2 ^ 22 % 2 ^ 3 := toNat_field w 22 3
  have hw : w.toNat < 2 ^ 32 := w.isLt
  omega

/-- `sext_16` reads field C as a signed number (00_scope.md R10, 30_encoding.md R103). -/
theorem toInt_sext16 (c : BitVec 16) :
    (sext16 c).toInt = if c.toNat < 2 ^ 15 then (c.toNat : Int) else (c.toNat : Int) - 2 ^ 16 := by
  rw [sext16, BitVec.toInt_signExtend_of_le (by omega), BitVec.toInt_eq_toNat_cond]
  split <;> split <;> omega

/-- The extension field is zero exactly when the number in bits 31:22 is a row of the opcode table. -/
theorem fieldX_eq_zero_iff (w : Word) : fieldX w = 0#7 ↔ w.toNat / 2 ^ 22 < 8 := by
  have hdiv := toNat_div_eq_fieldX_fieldOp w
  have ho : (fieldOp w).toNat < 8 := (fieldOp w).isLt
  have hx : fieldX w = 0#7 ↔ (fieldX w).toNat = 0 := BitVec.toNat_eq
  exact hx.trans (by omega)

/-- In a word whose extension field is zero, bits 31:22 are the opcode field. -/
theorem toNat_div_of_fieldX {w : Word} (hx : fieldX w = 0#7) : w.toNat / 2 ^ 22 = (fieldOp w).toNat := by
  rw [toNat_div_eq_fieldX_fieldOp, hx, BitVec.toNat_zero, Nat.mul_zero, Nat.zero_add]

/-- The opcode is the entry of the opcode table at the number in bits 31:22, INERT beyond the table. -/
theorem opcodeOf_eq_getD (w : Word) :
    opcodeOf w = [Op.add, .nor, .load, .store, .beq, .jalr, .halt, .noop].getD (w.toNat / 2 ^ 22) .inert := by
  have htable : ∀ k : BitVec 3, opcodeTable[k.toNat]'k.isLt =
      [Op.add, .nor, .load, .store, .beq, .jalr, .halt, .noop].getD k.toNat .inert := by decide
  by_cases hx : fieldX w = 0#7
  · rw [opcodeOf, if_pos hx, htable, toNat_div_of_fieldX hx]
  · have hlen : 8 ≤ w.toNat / 2 ^ 22 := Nat.le_of_not_lt fun h => hx ((fieldX_eq_zero_iff w).2 h)
    rw [opcodeOf, if_neg hx, List.getD_eq_default _ _ hlen]

/-- The code of the opcode is the number in bits 31:22, cut off at 8. -/
theorem toNat_code_opcodeOf (w : Word) : (opcodeOf w).code.toNat = min (w.toNat / 2 ^ 22) 8 := by
  have hlt := fieldX_eq_zero_iff w
  rw [code_opcodeOf]
  by_cases hx : fieldX w = 0#7
  · have hcode : (0#1 ++ fieldOp w).toNat = (fieldOp w).toNat :=
      (BitVec.toNat_append 0#1 (fieldOp w)).trans (by simp)
    rw [if_pos hx, hcode, ← toNat_div_of_fieldX hx, Nat.min_eq_left (hlt.1 hx).le]
  · rw [if_neg hx, Nat.min_eq_right (Nat.le_of_not_lt fun h => hx (hlt.2 h))]
    rfl

/-! The obligations -/

/-- Settles O1: the fields of a packed word are the fields packed. -/
theorem encodedInstructionDecodesBack : Obligations.EncodedInstructionDecodesBack := fun _ h => decode_encode h

/-- Settles O2: a word is the packing of its fields. -/
theorem everyWordIsOneInstruction : Obligations.EveryWordIsOneInstruction := fun w => ⟨decode_wf w, encode_decode w⟩

/-- Settles O3, field by field. -/
theorem decoderFieldsAreArithmeticOnTheWord : Obligations.DecoderFieldsAreArithmeticOnTheWord := by
  intro w
  refine ⟨toNat_field w 19 3, toNat_field w 16 3, toNat_fieldC w, ?_, opcodeOf_eq_getD w, toNat_code_opcodeOf w⟩
  rw [decodeFields_off, toInt_sext16, toNat_fieldC]

/-- Settles O5: each word evaluates to the encoding of its instruction, which decodes back. -/
theorem writtenWordsDecode : Obligations.WrittenWordsDecode :=
  ⟨decode_encode (i := .add 2#3 3#3 1#3 0#13) rfl, decode_encode (i := .nor 1#3 2#3 3#3 0#13) rfl,
    decode_encode (i := .lw 0#3 1#3 6#16) rfl, decode_encode (i := .sw 0#3 3#3 7#16) rfl,
    decode_encode (i := .beq 0#3 0#3 0xFFFC#16) rfl, decode_encode (i := .jalr 1#3 2#3 0#16) rfl,
    decode_encode (i := .halt 0#22) rfl, decode_encode (i := .noop 0#22) rfl,
    decode_encode (i := .inert 1#7 0#25) rfl⟩

/-- Settles O6: the meaning each arm of `exec` calls is not given the ignored bits, and that of JALR reads no field. -/
theorem ignoredBitsHaveNoEffect : Obligations.IgnoredBitsHaveNoEffect :=
  ⟨fun _ _ _ _ _ _ => rfl, fun _ _ _ _ _ _ => rfl, fun _ _ _ _ _ _ _ => rfl, fun _ _ _ => rfl, fun _ _ _ => rfl,
    fun _ _ _ _ _ => rfl⟩

end Sys2Proof
end

/-! PROOFS. The pipeline family (40_pipeline.md): the three courses of a committed cycle, the words in flight as
opcodes, the values no stage reads, and the statements about the stages and the end of a run. -/

section
namespace Sys2Proof.Machine

/-! The destination field of a word (40_pipeline.md R146) -/

/-- The valid bit on the wires says whether the field is an index (10_state.md R43). -/
theorem destWires_valid (d : Dest) : (destWires d).valid = if d.isSome = true then 1#1 else 0#1 := by
  cases d <;> rfl

/-- The index bits of a valid destination are the index. -/
theorem destWires_index_of_eq_some {d : Dest} {r : RegIdx} (h : d = some r) : (destWires d).index = r := by
  rw [h, destWires_some]

/-! The three courses of a committed cycle: a flush, a stall, and neither -/

section Courses
variable {s : State}

/-- A taken BEQ empties three latches and redirects, whether a stall fires or not (40_pipeline.md R171, R176). -/
theorem nextState_of_flush (hb : branchTaken s = true) :
    (nextState s).ifid = IfId.bubble ∧ (nextState s).idex = IdEx.bubble ∧
      (nextState s).exmem = ExMem.bubble ∧ (nextState s).pc = s.exmem.branchTarget := by
  simp [nextState_ifid, nextState_idex, nextState_exmem, nextState_pc, hb]

/-- A stall without a flush holds the word in IFID and the pc, and leaves IDEX empty (40_pipeline.md R151). -/
theorem nextState_of_stall (hb : branchTaken s = false) (hl : loadUse s = true) :
    (nextState s).ifid = { instr := s.ifid.instr, pcPlus1 := s.pc } ∧ (nextState s).pc = s.pc ∧
      (nextState s).idex = IdEx.bubble := by
  simp [nextState_ifid, nextState_idex, nextState_pc, hb, hl]

/-- With neither, Fetch and Decode fill their latches and the pc advances (40_pipeline.md R140, R145). -/
theorem nextState_of_flow (hb : branchTaken s = false) (hl : loadUse s = false) :
    (nextState s).ifid = { instr := s.imemWord s.pc, pcPlus1 := s.pc + 1#32 } ∧
      (nextState s).pc = s.pc + 1#32 ∧ (nextState s).idex = decodedLatch s := by
  simp [nextState_ifid, nextState_idex, nextState_pc, hb, hl]

/-- Without a flush, Execute fills EXMEM (40_pipeline.md R168). -/
theorem nextState_exmem_of_not_taken (hb : branchTaken s = false) : (nextState s).exmem = executedLatch s := by
  simp [nextState_exmem, hb]

/-- A stall leaves IDEX empty, a flush in the same cycle too. -/
theorem nextState_idex_of_loadUse (hl : loadUse s = true) : (nextState s).idex = IdEx.bubble := by
  simp [nextState_idex, hl]

/-- Only a BEQ in the Memory stage is taken. -/
theorem branchTaken_of_not_beq (h : s.exmem.opcode ≠ .beq) : branchTaken s = false := by
  simp [branchTaken, h]

/-- Only a LOAD in IDEX stalls. -/
theorem loadUse_of_not_load (h : s.idex.opcode ≠ .load) : loadUse s = false := by
  simp [loadUse, h]

/-- A cycle with no ADD, NOR or LOAD in MEMWB leaves the registers (40_pipeline.md R174). -/
theorem nextState_reg_of_not_writer (h : isWriter s.memwb.opcode = false) : (nextState s).reg = s.reg := by
  simp [nextState_reg, h]

end Courses

/-! The values Execute computes -/

/-- The ALU result by opcode, with the zero of the others (40_pipeline.md R165, D16). -/
theorem aluResultOf_eq (op : Op) (a b off : Word) :
    aluResultOf op a b off =
      if op = .add then a + b
      else if op = .nor then ~~~(a ||| b)
      else if op = .load ∨ op = .store then a + off
      else 0#32 := by
  cases op <;> rfl

/-- The forwarding unit's choice with its conditions as propositions (40_pipeline.md R160 to R163). -/
theorem fwd_eq (s : State) (r : RegIdx) (v : Word) :
    fwd s r v =
      if s.exmem.dest = some r ∧ isWriter s.exmem.opcode = true then s.exmem.aluResult
      else if s.memwb.dest = some r ∧ isWriter s.memwb.opcode = true then s.memwb.writeData
      else if s.wbret.dest = some r ∧ isWriter (opcodeOf s.wbret.instr) = true then s.wbret.writeData
      else v := by
  simp only [fwd, Bool.and_eq_true, destIs_iff]

/-- Execute sees IDEX and what the forwarding unit answers. -/
theorem executedLatch_congr {s t : State} (hi : t.idex = s.idex) (hf : ∀ r v, fwd t r v = fwd s r v) :
    executedLatch t = executedLatch s := by
  simp only [executedLatch, operandA, operandB, hi, hf]

/-! The edge of a running block with no HALT in MEMWB -/

/-- Such an edge stops at the cap, records a fault, or commits (40_pipeline.md R193, 60_exceptions.md R306). -/
theorem advanceClock_cases_of_not_halt (c : Config) {s : State} (hs : s.status = .running)
    (hm : s.memwb.opcode ≠ .halt) :
    (capReachedAt c s = true ∧ advanceClock c s = capRun s) ∨
    (capReachedAt c s = false ∧ ∃ f, advanceClock c s = takeFault f s) ∨
    (capReachedAt c s = false ∧ advanceClock c s = nextState s) := by
  rcases advanceClock_cases c s with
    ⟨hn, -⟩ | ⟨-, hh, -⟩ | ⟨-, hh, -⟩ | ⟨-, -, hc, h⟩ | ⟨-, -, hc, f, -, h⟩ | ⟨-, -, hc, -, h⟩
  · exact absurd hs hn
  · exact absurd hh hm
  · exact absurd hh hm
  · exact .inl ⟨hc, h⟩
  · exact .inr (.inl ⟨hc, f, h⟩)
  · exact .inr (.inr ⟨hc, h⟩)

/-- Below the cap, or without one, such an edge does not end in CapReached. -/
theorem advanceClock_status_ne_capReached {c : Config} {s : State} (hs : s.status = .running)
    (hm : s.memwb.opcode ≠ .halt) (hcap : capReachedAt c s = false) :
    (advanceClock c s).status ≠ .capReached := by
  rcases advanceClock_cases_of_not_halt c hs hm with ⟨hc, -⟩ | ⟨-, f, h⟩ | ⟨-, h⟩
  · rw [hcap] at hc
    cases hc
  · simp [h]
  · simp [h, hs]

theorem capReachedAt_of_some {c : Config} {cap : Nat} (h : c.cycleCap = some cap) (s : State) :
    capReachedAt c s = decide (cap ≤ s.cycles) := by
  simp only [capReachedAt, h]

theorem capReachedAt_of_none {c : Config} (h : c.cycleCap = none) (s : State) : capReachedAt c s = false := by
  simp only [capReachedAt, h]

/-! The opcodes in flight, oldest first -/

/-- The opcode of the word in flight that is the `i`-th to reach the end of the pipeline: MEMWB, EXMEM, IDEX, IFID. -/
def opInFlight (s : State) : Nat → Op
  | 0 => s.memwb.opcode
  | 1 => s.exmem.opcode
  | 2 => s.idex.opcode
  | _ => opcodeOf s.ifid.instr

/-- A cycle moves an opcode one place on, or a bubble takes its place (40_pipeline.md R133). -/
theorem opInFlight_nextState (s : State) {i : Nat} (hi : i < 3) :
    opInFlight (nextState s) i = opInFlight s (i + 1) ∨ opInFlight (nextState s) i = .noop := by
  match i, hi with
  | 0, _ => exact .inl (by simp [opInFlight])
  | 1, _ =>
    rcases nextState_exmem_cases s with he | he
    · exact .inr (by simp [opInFlight, he, ExMem.bubble])
    · exact .inl (by simp [opInFlight, he])
  | 2, _ =>
    rcases nextState_idex_cases s with he | ⟨-, -, he⟩
    · exact .inr (by simp [opInFlight, he, IdEx.bubble])
    · exact .inl (by simp [opInFlight, he])

/-- The `k` oldest words in flight write neither a register nor a data word. -/
def OldestWriteNothing (k : Nat) (s : State) : Prop :=
  ∀ i < k, isWriter (opInFlight s i) = false ∧ opInFlight s i ≠ .store

/-- Each cycle retires one of them, and the bubbles it may put in are no writers either. -/
theorem OldestWriteNothing.nextState {k : Nat} {s : State} (h : OldestWriteNothing (k + 1) s) (hk : k < 4) :
    OldestWriteNothing k (nextState s) := by
  intro i hi
  rcases opInFlight_nextState s (i := i) (by omega) with ho | ho
  · rw [ho]
    exact h (i + 1) (by omega)
  · rw [ho]
    exact ⟨rfl, by decide⟩

/-- While the words that retire write nothing, the registers stay. -/
theorem runClock_reg_of_oldestWriteNothing {c : Config} {k : Nat} {s : State} (hk : k ≤ 4)
    (h : OldestWriteNothing k s) (hc : ∀ j < k, commits c (runClock c j s) = true) :
    (runClock c k s).reg = s.reg := by
  induction k generalizing s with
  | zero => rfl
  | succ k ih =>
    have hn : advanceClock c s = nextState s := advanceClock_of_commits (hc 0 (by omega))
    have hstep : (nextState s).reg = s.reg := nextState_reg_of_not_writer (h 0 (by omega)).1
    rw [runClock_succ, ih (by omega) (hn ▸ h.nextState (by omega)) fun j hj => hc (j + 1) (by omega), hn, hstep]

/-- Data memory stays while the words of the Memory stage, one place younger, write nothing. -/
theorem runClock_dmem_of_oldestWriteNothing {c : Config} {k : Nat} {s : State} (hk : k ≤ 3)
    (h : OldestWriteNothing (k + 1) s) (hc : ∀ j < k, commits c (runClock c j s) = true) :
    (runClock c k s).dmem = s.dmem := by
  induction k generalizing s with
  | zero => rfl
  | succ k ih =>
    have hn : advanceClock c s = nextState s := advanceClock_of_commits (hc 0 (by omega))
    have hstep : (nextState s).dmem = s.dmem := nextState_dmem_of_not_store (h 1 (by omega)).2
    rw [runClock_succ, ih (by omega) (hn ▸ h.nextState (by omega)) fun j hj => hc (j + 1) (by omega), hn, hstep]

/-- A taken BEQ leaves itself and three bubbles in flight, none of which writes (40_pipeline.md R177). -/
theorem oldestWriteNothing_of_flush {s : State} (hb : branchTaken s = true) :
    OldestWriteNothing 4 (nextState s) := by
  obtain ⟨hbeq, -⟩ := (branchTaken_iff s).1 hb
  obtain ⟨hifid, hidex, hexmem, -⟩ := nextState_of_flush hb
  intro i hi
  match i, hi with
  | 0, _ => simp [opInFlight, hbeq, isWriter]
  | 1, _ => simp [opInFlight, hexmem, ExMem.bubble, isWriter]
  | 2, _ => simp [opInFlight, hidex, IdEx.bubble, isWriter]
  | 3, _ => simp [opInFlight, hifid, IfId.bubble, isWriter]

/-- The cycle after a taken BEQ fetches at the target. -/
theorem nextState_nextState_ifid_of_flush {s : State} (hb : branchTaken s = true) :
    (nextState (nextState s)).ifid.instr = memRead s.imem s.exmem.branchTarget.toNat := by
  obtain ⟨-, hidex, hexmem, hpc⟩ := nextState_of_flush hb
  have hb' : branchTaken (nextState s) = false := branchTaken_of_not_beq (by rw [hexmem]; decide)
  have hl' : loadUse (nextState s) = false := loadUse_of_not_load (by rw [hidex]; decide)
  rw [(nextState_of_flow hb' hl').1, State.imemWord, hpc, nextState_imem]

/-! The values no stage reads (93_implementation_defined.md I1, I3, I4) -/

section WriteDest
variable (s : State) (d : Dest) (v : Word)

theorem State.writeDest_setExmem (e : ExMem) : (s.setExmem e).writeDest d v = (s.writeDest d v).setExmem e := by
  cases d <;> rfl

theorem State.writeDest_setWbret (w : WbRet) : (s.setWbret w).writeDest d v = (s.writeDest d v).setWbret w := by
  cases d <;> rfl

end WriteDest

section Unused
variable {s : State} (v : Word)

/-- The branch target and the flag of an opcode other than BEQ. -/
theorem nextState_unused_branch (h : s.exmem.opcode ≠ .beq) (b : Bool) :
    nextState (s.setExmem { s.exmem with branchTarget := v, eq := b }) = nextState s := by
  have hb : branchTaken s = false := branchTaken_of_not_beq h
  have hb' : branchTaken (s.setExmem { s.exmem with branchTarget := v, eq := b }) = false := branchTaken_of_not_beq h
  rw [nextState_eq (s.setExmem _), nextState_eq s, hb, hb', State.writeDest_setExmem]
  rfl

/-- The ALU result of an opcode without an ALU operation: only MEMWB gets it. -/
theorem nextState_unused_aluResult (hw : isWriter s.exmem.opcode = false) (hs : s.exmem.opcode ≠ .store) :
    nextState (s.setExmem { s.exmem with aluResult := v }) =
      (nextState s).setMemwb { (nextState s).memwb with writeData := v } := by
  have hload : s.exmem.opcode ≠ .load := fun ho => by rw [ho] at hw; cases hw
  have he : executedLatch (s.setExmem { s.exmem with aluResult := v }) = executedLatch s :=
    executedLatch_congr rfl fun r u => by simp [fwd_eq, hw]; rfl
  have ha : accessedLatch (s.setExmem { s.exmem with aluResult := v }) = { accessedLatch s with writeData := v } := by
    simp [accessedLatch, hload]
  rw [nextState_eq (s.setExmem _), nextState_eq s, he, ha, State.writeDest_setExmem]
  simp only [State.setExmem_exmem, hs, if_false]
  rfl

/-- The write-back value of a non-writer in MEMWB: only WBRET gets it. -/
theorem nextState_unused_memwb (hw : isWriter s.memwb.opcode = false) :
    nextState (s.setMemwb { s.memwb with writeData := v }) =
      (nextState s).setWbret { (nextState s).wbret with writeData := v } := by
  have he : executedLatch (s.setMemwb { s.memwb with writeData := v }) = executedLatch s :=
    executedLatch_congr rfl fun r u => by simp [fwd_eq, hw]; rfl
  rw [nextState_eq (s.setMemwb _), nextState_eq s, he]
  simp only [State.setMemwb_memwb, hw]
  rfl

/-- The value of a non-writer in WBRET. -/
theorem nextState_unused_wbret (hw : isWriter (opcodeOf s.wbret.instr) = false) :
    nextState (s.setWbret { s.wbret with writeData := v }) = nextState s := by
  have he : executedLatch (s.setWbret { s.wbret with writeData := v }) = executedLatch s :=
    executedLatch_congr rfl fun r u => by simp [fwd_eq, hw]
  rw [nextState_eq (s.setWbret _), nextState_eq s, he, State.writeDest_setWbret]
  rfl

/-- Without a data access only Fetch can fault (60_exceptions.md R301). -/
theorem cycleFault_of_no_access (c : Config) (h : accessesData s.exmem.opcode = false) :
    cycleFault c s = fetchFault c s := by
  simp [cycleFault, memoryFault, h]

/-- The range check does not look at the ALU result of an opcode without a data access. -/
theorem commits_unused_aluResult (c : Config) (h : accessesData s.exmem.opcode = false) :
    commits c (s.setExmem { s.exmem with aluResult := v }) = commits c s := by
  have h' : accessesData (s.setExmem { s.exmem with aluResult := v }).exmem.opcode = false := h
  have hf : cycleFault c (s.setExmem { s.exmem with aluResult := v }) = cycleFault c s :=
    (cycleFault_of_no_access c h').trans (cycleFault_of_no_access c h).symm
  rw [commits, commits, hf]
  rfl

end Unused

/-! The word placed at the pc -/

/-- Placing the 32 bits of a word places the word. -/
theorem withFetchWord_toNat (s : State) (w : Word) : s.withFetchWord 32 w.toNat = placeAtPc s w := by
  rw [State.withFetchWord, Nat.mod_eq_of_lt w.isLt, BitVec.ofNat_toNat, BitVec.setWidth_eq]

theorem decodeTableWord_toNat (w : Word) : decodeTableWord 32 w.toNat = some (decode w) := by
  rw [decodeTableWord, if_pos (by decide), Nat.mod_eq_of_lt w.isLt, BitVec.ofNat_toNat, BitVec.setWidth_eq]

/-- Fetch of a placed word reads it (20_memory.md R84). -/
theorem imemWord_placeAtPc {s : State} (h : Memory.wf s.imem = true) (w : Word) :
    (placeAtPc s w).imemWord s.pc = w := by
  rw [State.imemWord, placeAtPc_imem, memRead_memWrite h, if_pos rfl]

/-! The obligations -/

/-- Settles O4, by the opcode of the word. -/
theorem destinationFieldFollowsTheInstruction : Obligations.DestinationFieldFollowsTheInstruction := by
  refine ⟨fun w => ?_, fun w => ⟨?_, fun r hr => destWires_index_of_eq_some hr, destOfWires_destWires _⟩,
    fun i => ⟨rfl, rfl⟩⟩
  · rw [decode_of_op, destOf, decodeFields_op]
    cases opcodeOf w <;> rfl
  · simp only [destWires_valid, destOf_isSome, isWriter_iff]

/-- Settles O21: a stall leaves no LOAD in IDEX. -/
theorem noStallFollowsAStall : Obligations.NoStallFollowsAStall := by
  intro s hc hl
  refine ⟨nextState s, step_of_commits hc, loadUse_of_not_load ?_⟩
  rw [nextState_idex_of_loadUse hl]
  decide

/-- Settles O28: after the flush the four oldest words in flight write nothing. -/
theorem squashedWordsNeverWrite : Obligations.SquashedWordsNeverWrite := by
  intro s hb hc
  have hn : advanceClock Config.default s = nextState s := advanceClock_of_commits (hc 0 (by omega))
  have hc' : ∀ j < 4, commits Config.default (runClock Config.default j (nextState s)) = true := fun j hj => by
    rw [← hn, ← runClock_succ]
    exact hc (j + 1) (by omega)
  have hn' : advanceClock Config.default (nextState s) = nextState (nextState s) :=
    advanceClock_of_commits (hc' 0 (by omega))
  have hquiet := oldestWriteNothing_of_flush hb
  obtain ⟨-, -, -, hpc⟩ := nextState_of_flush hb
  simp only [runClock_succ Config.default _ s, runClock_zero, hn]
  refine ⟨hpc, ?_, runClock_reg_of_oldestWriteNothing (by omega) hquiet hc',
    runClock_dmem_of_oldestWriteNothing (by omega) hquiet fun j hj => hc' j (by omega)⟩
  rw [runClock_succ, hn', runClock_zero]
  exact nextState_nextState_ifid_of_flush hb

/-- Settles O35, by what the edge can do. -/
theorem haltActsOnlyFromMemwb : Obligations.HaltActsOnlyFromMemwb := by
  intro c s hs hm
  rcases advanceClock_cases_of_not_halt c hs hm with ⟨-, h⟩ | ⟨-, f, h⟩ | ⟨-, h⟩
  · simp [h]
  · simp [h]
  · simp [h, hs]

/-- Settles O36, by whether the cap is reached. -/
theorem cycleCapStopsTheRun : Obligations.CycleCapStopsTheRun := by
  intro c s hs hm
  refine ⟨fun cap hcap hle => ?_, fun cap hcap hlt => ?_, fun hnone => ?_⟩
  · have hreached : capReachedAt c s = true := by rw [capReachedAt_of_some hcap, decide_eq_true hle]
    rcases advanceClock_cases_of_not_halt c hs hm with ⟨-, h⟩ | ⟨hc, -⟩ | ⟨hc, -⟩
    · exact h
    · cases hc.symm.trans hreached
    · cases hc.symm.trans hreached
  · refine advanceClock_status_ne_capReached hs hm ?_
    rw [capReachedAt_of_some hcap, decide_eq_false (by omega)]
  · exact advanceClock_status_ne_capReached hs hm (capReachedAt_of_none hnone s)

/-- Settles O44: the two runs commit alike, and the cycle does not read the changed value. -/
theorem unusedValuesReachNothing : Obligations.UnusedValuesReachNothing := by
  intro s n v hc hstep
  cases (step_of_commits hc).symm.trans hstep
  refine ⟨fun hbeq b => ?_, fun halu => ?_, fun hmemwb => ?_, fun hwbret => ?_⟩
  · have hc' : commits Config.default (s.setExmem { s.exmem with branchTarget := v, eq := b }) = true := hc
    exact (step_of_commits hc').trans (congrArg _ (nextState_unused_branch v hbeq b))
  · simp only [List.mem_cons, List.not_mem_nil, or_false, not_or] at halu
    obtain ⟨hadd, hnor, hload, hstore⟩ := halu
    have hw : isWriter s.exmem.opcode = false := by
      simp [← Bool.not_eq_true, isWriter_iff, hadd, hnor, hload]
    have ha : accessesData s.exmem.opcode = false := by simp [accessesData, hload, hstore]
    have hc' := (commits_unused_aluResult v Config.default ha).trans hc
    exact (step_of_commits hc').trans (congrArg _ (nextState_unused_aluResult v hw hstore))
  · have hw : isWriter s.memwb.opcode = false := by rwa [← Bool.not_eq_true, isWriter_iff]
    have hc' : commits Config.default (s.setMemwb { s.memwb with writeData := v }) = true := hc
    exact (step_of_commits hc').trans (congrArg _ (nextState_unused_memwb v hw))
  · have hw : isWriter (opcodeOf s.wbret.instr) = false := by rwa [← Bool.not_eq_true, isWriter_iff]
    have hc' : commits Config.default (s.setWbret { s.wbret with writeData := v }) = true := hc
    exact (step_of_commits hc').trans (congrArg _ (nextState_unused_wbret v hw))

/-- Settles O15, by the two cases of a cycle. -/
theorem everyStepHasANextState : Obligations.EveryStepHasANextState := by
  refine fun s => ⟨⟨_, step_eq s⟩, fun c => ?_⟩
  rcases cycle_cases c s with ⟨f, -, h⟩ | ⟨-, h⟩
  · exact .inr ⟨f, h⟩
  · exact .inl ⟨nextState s, h, nextState_status s, nextState_cycles s⟩

/-- Settles O16, by the course without stall and flush. -/
theorem fetchFillsIfidAndAdvancesThePc : Obligations.FetchFillsIfidAndAdvancesThePc := by
  intro s hc hl hb
  obtain ⟨hifid, hpc, -⟩ := nextState_of_flow hb hl
  exact ⟨nextState s, step_of_commits hc, hpc, hifid⟩

/-- Settles O18, by the course without stall and flush. -/
theorem decodeFillsIdexFromTheSnapshot : Obligations.DecodeFillsIdexFromTheSnapshot := by
  intro s hc hl hb
  obtain ⟨-, -, hidex⟩ := nextState_of_flow hb hl
  exact ⟨nextState s, step_of_commits hc, hidex⟩

/-- Settles O19: the test as a proposition, with USERS as a list. -/
theorem loadUseTestIsExact : Obligations.LoadUseTestIsExact := by
  intro s
  rw [loadUse_iff, isUser_iff]
  rfl

/-- Settles O20: only a LOAD in IDEX stalls, so with consistent latches the pc is the recorded `pc+1`. -/
theorem stallHoldsTheWordAndInsertsABubble : Obligations.StallHoldsTheWordAndInsertsABubble := by
  intro s hc hl
  refine ⟨nextState s, step_of_commits hc, fun hb => ?_, nextState_of_flush⟩
  obtain ⟨hifid, hpc, hidex⟩ := nextState_of_stall hb hl
  refine ⟨by rw [hifid], by rw [hifid], hpc, hidex, fun hcons => ?_⟩
  obtain ⟨hload, -⟩ := (loadUse_iff s).1 hl
  rw [hifid, ← ((latchesConsistent_iff s).1 hcons).loadInStep hload]

/-- Settles O22: the four clauses are the four branches of the forwarding unit. -/
theorem nearestProducerWins : Obligations.NearestProducerWins := by
  intro s r v
  simp only [fwd_eq, isWriter_iff, decodeFields_op]
  exact ⟨fun h1 => if_pos h1, fun h1 h2 => (if_neg h1).trans (if_pos h2),
    fun h1 h2 h3 => (if_neg h1).trans ((if_neg h2).trans (if_pos h3)),
    fun h1 h2 h3 => (if_neg h1).trans ((if_neg h2).trans (if_neg h3))⟩

/-- Settles O24, with the ALU result by opcode. -/
theorem executeFillsExmem : Obligations.ExecuteFillsExmem := by
  intro s hc hb
  refine ⟨nextState s, step_of_commits hc, ?_⟩
  rw [nextState_exmem_of_not_taken hb, executedLatch, aluResultOf_eq]
  rfl

/-- Settles O25: no stall and no flush reaches MEMWB. -/
theorem memoryStageFillsMemwb : Obligations.MemoryStageFillsMemwb :=
  fun s hc => ⟨nextState s, step_of_commits hc, nextState_memwb s⟩

/-- Settles O27, by the flag. -/
theorem takenBeqFlushesAndRedirects : Obligations.TakenBeqFlushesAndRedirects := by
  intro s hc hbeq
  refine ⟨nextState s, step_of_commits hc, fun heq => ?_, fun heq hl => ?_⟩
  · exact nextState_of_flush ((branchTaken_iff s).2 ⟨hbeq, heq⟩)
  · have hb : branchTaken s = false := by simp [branchTaken, heq]
    obtain ⟨hifid, hpc, hidex⟩ := nextState_of_flow hb hl
    exact ⟨hifid, hidex, nextState_exmem_of_not_taken hb, hpc⟩

/-- Settles O30: no stall and no flush reaches WBRET. -/
theorem writebackFillsWbretUnconditionally : Obligations.WritebackFillsWbretUnconditionally :=
  fun s hc => ⟨nextState s, step_of_commits hc, nextState_wbret s⟩

/-- Settles O31, by the three courses of the cycle. -/
theorem instructionsMoveOneLatchForward : Obligations.InstructionsMoveOneLatchForward := by
  intro s hc
  refine ⟨nextState s, step_of_commits hc, by simp, by simp, fun hb => ?_, fun hb hl => ?_, fun hb hl => ?_,
    fun hb => ?_⟩
  · rw [nextState_exmem_of_not_taken hb, executedLatch_instr]
  · obtain ⟨hifid, -, hidex⟩ := nextState_of_flow hb hl
    exact ⟨by rw [hifid, State.imemWord], by rw [hidex, decodedLatch_instr]⟩
  · obtain ⟨hifid, -, hidex⟩ := nextState_of_stall hb hl
    exact ⟨by rw [hifid], hidex⟩
  · obtain ⟨hifid, hidex, hexmem, -⟩ := nextState_of_flush hb
    exact ⟨hifid, hidex, hexmem⟩

/-- Settles O34, by the parameter and by whether the extra cycle faults. -/
theorem haltInMemwbEndsTheRun : Obligations.HaltInMemwbEndsTheRun := by
  intro c s hs hm
  refine ⟨fun hx => ?_, fun hx hf => ?_, fun hx f hf => ?_⟩
  · simp [advanceClock, hs, hm, hx, haltRun, State.setStatus]
  · simp [advanceClock, hs, hm, hx, haltAfterCycle, cycle, hf, haltRun, State.setStatus]
  · simp [advanceClock, hs, hm, hx, haltAfterCycle, cycle, hf, takeFault, State.setStatus]

/-- Settles O54: placing a word changes neither what commits nor the hazards, only the word Fetch reads. -/
theorem placedWordIsFetchedNext : Obligations.PlacedWordIsFetchedNext := by
  intro s w hwf hc hl hb
  rw [withFetchWord_toNat]
  have hc' : commits Config.default (placeAtPc s w) = true := hc
  obtain ⟨hifid, -, -⟩ := nextState_of_flow (s := placeAtPc s w) hb hl
  refine ⟨nextState (placeAtPc s w), step_of_commits hc', ?_, decodeTableWord_toNat w⟩
  rw [hifid, placeAtPc_pc, imemWord_placeAtPc hwf]

end Sys2Proof.Machine
end

/-! PROOFS. The ALU family (41_alu.md): the register write that ADD and NOR share, the forwarding network read as
register values, and the statements about both. -/

section
namespace Sys2Proof.Machine

/-! An ALU instruction on its own: one register write, then the advance of the pc -/

section AluResult
variable (s : State)

/-- The advance of the pc is not seen by a register read. -/
@[simp] theorem readReg_advance (r : RegIdx) : (advance s).readReg r = s.readReg r := rfl

/-- The effect ADD and NOR share (41_alu.md R200, R201): the result is in the destination, every other register
and every other field but the pc is kept. -/
theorem advance_writeReg_effect (d : RegIdx) (v : Word) :
    (advance (s.writeReg d v)).readReg d = v ∧
      (∀ r, r ≠ d → (advance (s.writeReg d v)).readReg r = s.readReg r) ∧
      advance (s.writeReg d v) = { s with pc := s.pc + 1#32, reg := (advance (s.writeReg d v)).reg } :=
  ⟨s.readReg_writeReg_same d v, fun _ hr => s.readReg_writeReg_other v hr.symm, rfl⟩

end AluResult

/-- The sum as a natural number, modulo 2^32 (41_alu.md R200, D9). -/
theorem toNat_addResult (a b : Word) : (addResult a b).toNat = (a.toNat + b.toNat) % 2 ^ 32 := BitVec.toNat_add a b

/-- The NOR, bit by bit (41_alu.md R201). -/
theorem getLsbD_norResult (a b : Word) {i : Nat} (hi : i < 32) :
    (norResult a b).getLsbD i = !(a.getLsbD i || b.getLsbD i) := by
  simp [norResult, hi]

/-! The forwarding network with consistent latches (40_pipeline.md R160 to R163) -/

section Forwarding
variable {s : State} {r : RegIdx}

/-- A destination field of WBRET that is an index belongs to a writer, as for EXMEM and MEMWB. -/
theorem LatchFacts.writer_of_wbretDest (h : LatchFacts s) (hr : s.wbret.dest = some r) :
    isWriter (opcodeOf s.wbret.instr) = true := by
  have hd := destOf_isSome (decodeFields s.wbret.instr)
  rw [← h.wbretDest, hr] at hd
  exact hd.symm

/-- With consistent latches the destination fields alone choose the producer. -/
theorem LatchFacts.fwd_eq_by_dest (h : LatchFacts s) (v : Word) :
    fwd s r v =
      if s.exmem.dest = some r then s.exmem.aluResult
      else if s.memwb.dest = some r then s.memwb.writeData
      else if s.wbret.dest = some r then s.wbret.writeData
      else v := by
  simp only [fwd_eq, and_iff_left_of_imp h.writer_of_exmemDest, and_iff_left_of_imp h.writer_of_memwbDest,
    and_iff_left_of_imp h.writer_of_wbretDest]

/-- Where neither EXMEM nor MEMWB produces `r`, what is left of the network gives the register's value: a value
Decode read too early is replaced by the one WBRET retired (40_pipeline.md R163). -/
theorem LatchFacts.retired_or_read_eq_readReg (h : LatchFacts s) {v : Word}
    (hv : v = s.readReg r ∨ s.wbret.dest = some r) :
    (if s.wbret.dest = some r then s.wbret.writeData else v) = s.readReg r := by
  by_cases hd : s.wbret.dest = some r
  · rw [if_pos hd, h.retiredHeld r hd]
  · rw [if_neg hd, hv.resolve_right hd]

/-- The forwarded value of `r` is the register's value once the two older instructions have finished, unless a
LOAD in EXMEM is to write `r`: its word has not been read yet (40_pipeline.md R169). -/
theorem LatchFacts.fwd_eq_readReg_finished (h : LatchFacts s) {v : Word} (c : Config)
    (hv : v = s.readReg r ∨ s.wbret.dest = some r) (hload : s.exmem.opcode = .load → s.exmem.dest ≠ some r) :
    fwd s r v = (finishExmem c s (finishMemwb s s).1).1.readReg r := by
  rw [h.fwd_eq_by_dest, h.retired_or_read_eq_readReg hv, finishExmem_readReg h _ r c hload, finishMemwb_readReg h]

end Forwarding

/-! The obligations -/

/-- Settles O23: the stall has separated a LOAD in EXMEM from the operands, so each is forwarded right. -/
theorem forwardedOperandsAreTheSequentialValues : Obligations.ForwardedOperandsAreTheSequentialValues := by
  intro s hl hu
  have h : LatchFacts s := (latchesConsistent_iff s).1 hl
  exact ⟨h.fwd_eq_readReg_finished _ (h.currentA hu) fun ho => h.separateA ho hu,
    fun hx => h.fwd_eq_readReg_finished _ (h.currentB hu) fun ho => h.separateB ho hu hx⟩

/-- Settles O7: the register write is the sum. -/
theorem addWritesTheSum : Obligations.AddWritesTheSum := by
  intro a b d x s
  obtain ⟨hres, hother, hframe⟩ := advance_writeReg_effect s d (addResult (s.readReg a) (s.readReg b))
  exact ⟨_, exec_eq_next _ s, by rw [hres, toNat_addResult], hother, hframe⟩

/-- Settles O8: the register write is the NOR. -/
theorem norWritesTheBitwiseNor : Obligations.NorWritesTheBitwiseNor := by
  intro a b d x s
  obtain ⟨hres, hother, hframe⟩ := advance_writeReg_effect s d (norResult (s.readReg a) (s.readReg b))
  exact ⟨_, exec_eq_next _ s, fun i hi => by rw [hres, getLsbD_norResult _ _ hi], hother, hframe⟩

end Sys2Proof.Machine
end

/-! PROOFS. The load and store family (42_loadstore.md): what LOAD and STORE do on either side of the range check,
and the statements about both. -/

section
namespace Sys2Proof.Machine

/-! The effective address and its range check, in the terms of the statements -/

/-- The one addressing mode (42_loadstore.md R220). -/
theorem dataAddress_eq (a : RegIdx) (c : BitVec 16) (s : State) : dataAddress a c s = s.readReg a + sext16 c := rfl

/-- The default data memory has 65536 words (00_scope.md R8). -/
theorem inRange_default_dmem_iff (v : Word) :
    inRange Config.default.dmemWords v = true ↔ 0 ≤ v.toInt ∧ v.toInt < 65536 :=
  inRange_iff Config.default.dmemWords v

/-- Outside the default data memory, at either end (20_memory.md R86, D10). -/
theorem inRange_default_dmem_eq_false_iff (v : Word) :
    inRange Config.default.dmemWords v = false ↔ v.toInt < 0 ∨ 65536 ≤ v.toInt :=
  inRange_eq_false_iff Config.default.dmemWords v

/-! LOAD and STORE on either side of the range check, for any parameters -/

section Access
variable {cfg : Config} {a : RegIdx} {c : BitVec 16} {s : State} (b : RegIdx)

/-- In range a LOAD is one register write (42_loadstore.md R221). -/
theorem loadWord_of_inRange (h : inRange cfg.dmemWords (dataAddress a c s) = true) :
    loadWord cfg a b c s = advance (s.writeReg b (s.dmemWord (dataAddress a c s))) := if_pos h

/-- In range a STORE is one memory write (42_loadstore.md R222). -/
theorem storeReg_of_inRange (h : inRange cfg.dmemWords (dataAddress a c s) = true) :
    storeReg cfg a b c s = advance (s.storeWord (dataAddress a c s) (s.readReg b)) := if_pos h

/-- Out of range a LOAD is the fault (42_loadstore.md R221, 60_exceptions.md R301). -/
theorem loadWord_of_not_inRange (h : inRange cfg.dmemWords (dataAddress a c s) = false) :
    loadWord cfg a b c s = takeFault (.dataAccessOutOfRange (dataAddress a c s)) s :=
  if_neg (ne_true_of_eq_false h)

/-- Out of range a STORE is the same fault (42_loadstore.md R222, 60_exceptions.md R301). -/
theorem storeReg_of_not_inRange (h : inRange cfg.dmemWords (dataAddress a c s) = false) :
    storeReg cfg a b c s = takeFault (.dataAccessOutOfRange (dataAddress a c s)) s :=
  if_neg (ne_true_of_eq_false h)

end Access

theorem exec_lw (a b : RegIdx) (c : BitVec 16) (s : State) :
    exec (.lw a b c) s = .next (loadWord Config.default a b c s) := exec_eq_next _ s

theorem exec_sw (a b : RegIdx) (c : BitVec 16) (s : State) :
    exec (.sw a b c) s = .next (storeReg Config.default a b c s) := exec_eq_next _ s

/-- A memory write, then the advance of the pc (42_loadstore.md R222, 20_memory.md R84): the word is at its address,
every other word of data memory and every other field but the pc is kept. -/
theorem advance_storeWord_effect {s : State} (hwf : Memory.wf s.dmem = true) (ea v : Word) :
    memRead (advance (s.storeWord ea v)).dmem ea.toNat = v ∧
      (∀ k, k ≠ ea.toNat → memRead (advance (s.storeWord ea v)).dmem k = memRead s.dmem k) ∧
      advance (s.storeWord ea v) = { s with pc := s.pc + 1#32, dmem := (advance (s.storeWord ea v)).dmem } := by
  have hread (k : Nat) : memRead (advance (s.storeWord ea v)).dmem k =
      if ea.toNat = k then v else memRead s.dmem k := memRead_memWrite hwf ea.toNat k v
  exact ⟨(hread _).trans (if_pos rfl), fun k hk => (hread k).trans (if_neg hk.symm), rfl⟩

/-! The obligations -/

/-- Settles O10: in range a STORE is one memory write. -/
theorem storeWritesTheWordAtItsAddress : Obligations.StoreWritesTheWordAtItsAddress := by
  intro a b c s hwf hlo hhi
  have hin := (inRange_default_dmem_iff (dataAddress a c s)).2 ⟨hlo, hhi⟩
  exact ⟨_, by rw [exec_sw, storeReg_of_inRange b hin], dataAddress_eq a c s,
    advance_storeWord_effect hwf (dataAddress a c s) (s.readReg b)⟩

/-- Settles O9: in range a LOAD is one register write, of the word at its address. -/
theorem loadWritesTheWordAtItsAddress : Obligations.LoadWritesTheWordAtItsAddress := by
  intro a b c s hlo hhi
  rw [← dataAddress_eq] at hlo hhi ⊢
  have hin := (inRange_default_dmem_iff _).2 ⟨hlo, hhi⟩
  exact ⟨_, by rw [exec_lw, loadWord_of_inRange b hin],
    advance_writeReg_effect s b (s.dmemWord (dataAddress a c s))⟩

/-- Settles O11: the two take the one fault, which writes the status only. -/
theorem outOfRangeLoadAndStoreTakeTheFault : Obligations.OutOfRangeLoadAndStoreTakeTheFault := by
  intro a b c s hout
  rw [← dataAddress_eq] at hout ⊢
  have hoff := (inRange_default_dmem_eq_false_iff _).2 hout
  rw [exec_lw, exec_sw, loadWord_of_not_inRange b hoff, storeReg_of_not_inRange b hoff]
  exact ⟨rfl, rfl⟩

end Sys2Proof.Machine
end

/-! PROOFS. The control family (43_control.md, 44_system.md): BEQ on its own by its comparison, a word in the Memory
stage whose opcode neither writes nor is taken, and the statements about BEQ, JALR, NOOP and INERT. -/

section
namespace Sys2Proof.Machine

/-! BEQ on its own (43_control.md R240) -/

section Beq
variable {a b : RegIdx} {s : State} (c : BitVec 16)

theorem exec_beq_of_eq (h : s.readReg a = s.readReg b) :
    exec (.beq a b c) s = .next (s.setPc (branchTargetOf (s.pc + 1#32) (sext16 c))) :=
  (exec_eq_next _ s).trans (congrArg _ (if_pos (decide_eq_true h)))

theorem exec_beq_of_ne (h : s.readReg a ≠ s.readReg b) : exec (.beq a b c) s = .next (advance s) :=
  (exec_eq_next _ s).trans (congrArg _ (if_neg (ne_true_of_eq_false (decide_eq_false h))))

end Beq

/-! NOOP in place of an opcode in the Memory stage (44_system.md R263) -/

section NoopInMemory
variable {s : State}

/-- A NOOP in EXMEM forwards nothing, so in place of a non-writer the operands in Execute stay
(40_pipeline.md R160). -/
theorem executedLatch_noop_exmem (hw : isWriter s.exmem.opcode = false) :
    executedLatch (s.setExmem { s.exmem with opcode := .noop }) = executedLatch s := by
  have hnoop : isWriter .noop = false := rfl
  exact executedLatch_congr rfl fun r v => by simp [fwd_eq, hw, hnoop]; rfl

/-- An opcode other than LOAD passes the ALU result on, as a NOOP does (40_pipeline.md R170). -/
theorem accessedLatch_noop_exmem (hload : s.exmem.opcode ≠ .load) :
    accessedLatch (s.setExmem { s.exmem with opcode := .noop }) = { accessedLatch s with opcode := .noop } := by
  simp [accessedLatch, hload]

/-- An opcode that makes no data access faults as a NOOP does, so the edge commits alike (60_exceptions.md R301). -/
theorem commits_noop_exmem (c : Config) (ha : accessesData s.exmem.opcode = false) :
    commits c (s.setExmem { s.exmem with opcode := .noop }) = commits c s := by
  have hf : cycleFault c (s.setExmem { s.exmem with opcode := .noop }) = cycleFault c s :=
    (cycleFault_of_no_access c rfl).trans (cycleFault_of_no_access c ha).symm
  rw [commits, commits, hf]
  rfl

/-- An opcode that writes no register, makes no data access and is not taken acts in the Memory stage as a NOOP
does: only MEMWB gets the opcode. -/
theorem nextState_noop_exmem (hw : isWriter s.exmem.opcode = false) (ha : accessesData s.exmem.opcode = false)
    (hb : branchTaken s = false) :
    nextState (s.setExmem { s.exmem with opcode := .noop }) =
      (nextState s).setMemwb { (nextState s).memwb with opcode := .noop } := by
  obtain ⟨hload, hstore⟩ : s.exmem.opcode ≠ .load ∧ s.exmem.opcode ≠ .store := by simpa [accessesData] using ha
  have hb' : branchTaken (s.setExmem { s.exmem with opcode := .noop }) = false := rfl
  rw [nextState_eq (s.setExmem _), nextState_eq s, hb, hb', executedLatch_noop_exmem hw,
    accessedLatch_noop_exmem hload, if_neg hstore, State.writeDest_setExmem]
  rfl

end NoopInMemory

/-! The obligations -/

/-- Settles O32: an untaken BEQ has NOOP's effect, and without a flush the cycle takes its course, stalled or not. -/
theorem untakenBeqActsAsNoop : Obligations.UntakenBeqActsAsNoop := by
  intro s hc hbeq heq
  have hw : isWriter s.exmem.opcode = false := by rw [hbeq]; rfl
  have ha : accessesData s.exmem.opcode = false := by rw [hbeq]; rfl
  have hb : branchTaken s = false := by simp [branchTaken, heq]
  have hc' := (commits_noop_exmem Config.default ha).trans hc
  refine ⟨nextState s, step_of_commits hc, ?_, ?_, fun hl => ?_, fun hl => ?_⟩
  · exact (step_of_commits hc').trans (congrArg _ (nextState_noop_exmem hw ha hb))
  · rw [nextState_exmem_of_not_taken hb, executedLatch_instr]
  · obtain ⟨hifid, hpc, hidex⟩ := nextState_of_flow hb hl
    exact ⟨by rw [hidex, decodedLatch_instr], by rw [hifid, State.imemWord], hpc⟩
  · obtain ⟨hifid, hpc, -⟩ := nextState_of_stall hb hl
    exact ⟨by rw [hifid], hpc⟩

/-- Settles O12, by the comparison of the two registers. -/
theorem beqChangesOnlyThePc : Obligations.BeqChangesOnlyThePc :=
  fun _ _ c _ => ⟨exec_beq_of_eq c, exec_beq_of_ne c⟩

/-- Settles O13: the meaning of each of the three is the advance of the pc alone. -/
theorem jalrNoopAndInertOnlyAdvanceThePc : Obligations.JalrNoopAndInertOnlyAdvanceThePc :=
  fun s => ⟨fun a b x => exec_eq_next (.jalr a b x) s, fun x => exec_eq_next (.noop x) s,
    fun e x => exec_eq_next (.inert e x) s⟩

end Sys2Proof.Machine
end

/-! PROOFS. The system family (44_system.md): what HALT writes, and the statement of the family. -/

section
namespace Sys2Proof.Machine

/-- Ending the run after the pc's advance writes the pc and the status alone: no register and no memory
(44_system.md R260; the pc's advance is log entry 4). -/
theorem haltRun_advance (s : State) :
    haltRun (advance s) = { s with pc := s.pc + 1#32, status := .halted } := rfl

/-- Settles O14: HALT is the pc's advance and then the end of the run. -/
theorem haltEndsTheRunAndWritesNothing : Obligations.HaltEndsTheRunAndWritesNothing :=
  fun x s => (exec_eq_next (.halt x) s).trans (congrArg _ (haltRun_advance s))

end Sys2Proof.Machine
end

/-! PROOFS. The exceptions family (60_exceptions.md): which fault a cycle raises, what an edge does with it, where a
recorded fault comes from, and the statements about the two hard faults. -/

section
namespace Sys2Proof.Machine

/-! Which fault a cycle raises (60_exceptions.md R300 to R302) -/

theorem accessesData_iff (op : Op) : accessesData op = true ↔ op = .load ∨ op = .store := by
  simp [accessesData]

theorem accessesData_eq_false_iff (op : Op) : accessesData op = false ↔ op ≠ .load ∧ op ≠ .store := by
  simp [accessesData]

section CycleFault
variable {c : Config} {s : State}

/-- The data fault is the cycle's, wherever the pc is (60_exceptions.md R301, R302). -/
theorem cycleFault_of_data_access_out (ha : accessesData s.exmem.opcode = true)
    (hd : inRange c.dmemWords s.exmem.aluResult = false) :
    cycleFault c s = some (.dataAccessOutOfRange s.exmem.aluResult) := by
  simp [cycleFault, memoryFault, ha, hd]

/-- Without a data fault the fetch fault is the cycle's, whether or not a stall or a flush discards the word
(60_exceptions.md R300, 40_pipeline.md R141). -/
theorem cycleFault_of_fetch_out
    (hd : accessesData s.exmem.opcode = false ∨ inRange c.dmemWords s.exmem.aluResult = true)
    (hp : inRange c.imemWords s.pc = false) : cycleFault c s = some (.instructionFetchOutOfRange s.pc) := by
  rcases hd with ha | hd
  · simp [cycleFault_of_no_access c ha, fetchFault, hp]
  · simp [cycleFault, memoryFault, fetchFault, hd, hp]

/-! What a cycle and an edge do with a fault (60_exceptions.md R303) -/

theorem cycle_of_cycleFault {f : Fault} (hf : cycleFault c s = some f) : cycle c s = .fault f := by
  simp [cycle, hf]

/-- The edge of a running block that has neither a HALT in MEMWB nor reached its cap takes the fault of its cycle,
with any parameters. -/
theorem advanceClock_of_cycleFault {f : Fault} (hs : s.status = .running) (hm : s.memwb.opcode ≠ .halt)
    (hcap : capReachedAt c s = false) (hf : cycleFault c s = some f) : advanceClock c s = takeFault f s := by
  simp [advanceClock, commitCycle, cycle_of_cycleFault hf, hs, hm, hcap]

/-! Where a recorded fault comes from -/

/-- The extra cycle of `HALT_EXTRA_CYCLE` records only its own fault (40_pipeline.md R191). -/
theorem cycleFault_of_haltAfterCycle_faulted {f : Fault} {k : Nat}
    (h : (haltAfterCycle c s).status = .faulted f k) : cycleFault c s = some f := by
  rcases cycle_cases c s with ⟨g, hg, hc⟩ | ⟨-, hc⟩
  · obtain ⟨rfl, -⟩ : g = f ∧ s.cycles + 1 = k := by simpa [haltAfterCycle, hc] using h
    exact hg
  · simp [haltAfterCycle, hc] at h

/-- A fault that an edge of a running block records is the fault of the cycle at that edge. -/
theorem cycleFault_of_advanceClock_faulted {f : Fault} {k : Nat} (hs : s.status = .running)
    (h : (advanceClock c s).status = .faulted f k) : cycleFault c s = some f := by
  rcases advanceClock_cases c s with
    ⟨hn, -⟩ | ⟨-, -, -, he⟩ | ⟨-, -, -, he⟩ | ⟨-, -, -, he⟩ | ⟨-, -, -, g, hg, he⟩ | ⟨-, -, -, -, he⟩
  · exact absurd hs hn
  · simp [he] at h
  · exact cycleFault_of_haltAfterCycle_faulted (he ▸ h)
  · simp [he] at h
  · obtain ⟨rfl, -⟩ : g = f ∧ s.cycles + 1 = k := by simpa [he] using h
    exact hg
  · simp [he, hs] at h

end CycleFault

/-! The obligations -/

/-- Settles O39: a recorded fault is the cycle's, and a cycle has the two faults only. -/
theorem onlyOutOfRangeAccessesFault : Obligations.OnlyOutOfRangeAccessesFault := by
  intro c s f k hs h
  have hf := cycleFault_of_advanceClock_faulted hs h
  rcases cycleFault_cases c s with ⟨ha, hd, hg⟩ | ⟨-, hp, hg⟩ | ⟨-, -, hg⟩
  · cases hg.symm.trans hf
    exact .inl ⟨rfl, (accessesData_iff _).1 ha, (inRange_iff _ _).not.1 (ne_true_of_eq_false hd)⟩
  · cases hg.symm.trans hf
    exact .inr ⟨rfl, (inRange_iff _ _).not.1 (ne_true_of_eq_false hp)⟩
  · cases hg.symm.trans hf

/-- Settles O37: the data fault is the cycle's whatever the fetch does, and taking it writes the status only. -/
theorem dataFaultIsTakenFirstAndCommitsNothing : Obligations.DataFaultIsTakenFirstAndCommitsNothing := by
  intro c s hop hout
  have hf := cycleFault_of_data_access_out ((accessesData_iff _).2 hop) ((inRange_eq_false_iff _ _).2 hout)
  exact ⟨cycle_of_cycleFault hf, fun hs hm hcap => advanceClock_of_cycleFault hs hm hcap hf⟩

/-- Settles O38: no stall and no flush enters the fault of a cycle, and taking it writes the status only. -/
theorem fetchFaultIsTakenWhateverBecomesOfTheWord : Obligations.FetchFaultIsTakenWhateverBecomesOfTheWord := by
  intro c s hdata hout
  have hd := hdata.imp (accessesData_eq_false_iff _).2 (inRange_iff c.dmemWords _).2
  have hf := cycleFault_of_fetch_out hd ((inRange_eq_false_iff _ _).2 hout)
  exact ⟨cycle_of_cycleFault hf, fun hs hm hcap => advanceClock_of_cycleFault hs hm hcap hf⟩

end Sys2Proof.Machine
end

/-! PROOFS. The reset-and-hazards family (70_reset_and_hazards.md), the simulation: how the work that is left of the
words in flight carries over a clock edge, and the statement that a step runs the instruction it fetches. -/

section
namespace Sys2Proof.Machine

/-! The stages of the sequential view, oldest first -/

/-- The sequential view with the word in MEMWB finished. -/
def afterMemwb (s : State) : Progress := finishMemwb s (settle s)

/-- The sequential view with the words in MEMWB and EXMEM finished. -/
def afterExmem (s : State) : Progress := (afterMemwb s).andThen (finishExmem Config.default s)

/-- The sequential view with all but the word in IFID finished. -/
def afterIdex (s : State) : Progress := (afterExmem s).andThen (finishWord s.idex.instr s.idex.pcPlus1)

theorem afterExmem_eq (s : State) : afterExmem s = (afterMemwb s).andThen (finishExmem Config.default s) := rfl

theorem afterIdex_eq (s : State) :
    afterIdex s = (afterExmem s).andThen (finishWord s.idex.instr s.idex.pcPlus1) := rfl

theorem finishInFlight_eq (s : State) :
    finishInFlight s = (afterIdex s).andThen (finishWord s.ifid.instr s.ifid.pcPlus1) := rfl

theorem drain_of_running {s : State} (h : s.status = .running) : drain s = settle (finishInFlight s).1 := if_pos h

theorem drain_of_stopped {s : State} (h : s.status ≠ .running) : drain s = settle s := if_neg h

theorem settle_drain (s : State) : settle (drain s) = drain s := by
  unfold drain
  split <;> exact settle_settle _

theorem Progress.andThen_of_open {p : Progress} (h : p.2 = true) (f : State → Progress) : p.andThen f = f p.1 :=
  if_pos h

theorem Progress.andThen_of_closed {p : Progress} (h : p.2 = false) (f : State → Progress) : p.andThen f = p :=
  if_neg (ne_true_of_eq_false h)

/-- The path is still open after a further word only if it was before and the word leaves it open. -/
theorem Progress.andThen_open_iff (p : Progress) (f : State → Progress) :
    (p.andThen f).2 = true ↔ p.2 = true ∧ (f p.1).2 = true := by
  cases h : p.2 <;> simp [Progress.andThen, h]

/-- A bubble leaves the sequential view as it is. -/
theorem Progress.andThen_noop {p : Progress} {w : Word} (hw : opcodeOf w = .noop) (x : Word)
    (hp : p.2 = true → p.1.status = .running) : p.andThen (finishWord w x) = p := by
  cases h : p.2 with
  | false => exact Progress.andThen_of_closed h _
  | true =>
    rw [Progress.andThen_of_open h, finishWord_noop hw x p.1 (hp h), ← h]

theorem settle_setPc_of_stopped {t : State} (h : t.status ≠ .running) (q : Word) : settle (t.setPc q) = settle t := by
  simp [settle, State.setPc, h]

/-! What an open path says of the view -/

/-- A view with nothing in flight and the block's instruction memory, whose run goes on at the fetch pc while the
path is open. -/
structure OnCourse (s : State) (p : Progress) : Prop where
  settled : Settled p.1
  running : p.2 = true → p.1.status = .running
  pc : p.2 = true → p.1.pc = s.pc
  imem : p.1.imem = s.imem

theorem onCourse_afterMemwb {s : State} (hr : s.status = .running) : OnCourse s (afterMemwb s) := by
  have hset := settled_settle s
  have hpc := settle_pc_running s hr
  by_cases hm : s.memwb.opcode = .halt
  · rw [afterMemwb, finishMemwb, if_pos hm]
    exact ⟨hset.congr rfl, nofun, nofun, rfl⟩
  · obtain ⟨t, ht, hframe⟩ := finishMemwb_frame hm (settle s)
    rw [afterMemwb, ht]
    refine ⟨hset.congr ?_, fun _ => ?_, fun _ => ?_, ?_⟩ <;> rw [hframe]
    · exact hr
    · exact hpc
    · rfl

/-- Finishing EXMEM changes the pc, the registers, data memory and the status at most. -/
theorem finishExmem_frame (c : Config) (s t : State) :
    (finishExmem c s t).1 =
      { t with
        pc := (finishExmem c s t).1.pc, reg := (finishExmem c s t).1.reg, dmem := (finishExmem c s t).1.dmem,
        status := (finishExmem c s t).1.status } := by
  unfold finishExmem
  cases s.exmem.opcode with
  | add | nor => cases s.exmem.dest <;> rfl
  | load =>
    dsimp only
    split
    · cases s.exmem.dest <;> rfl
    · rfl
  | store | beq => dsimp only; split <;> rfl
  | jalr | halt | noop | inert => rfl

/-- If EXMEM leaves the path open, it leaves the pc and the status. -/
theorem finishExmem_open {c : Config} {s t : State} (h : (finishExmem c s t).2 = true) :
    (finishExmem c s t).1.pc = t.pc ∧ (finishExmem c s t).1.status = t.status := by
  revert h
  unfold finishExmem
  cases s.exmem.opcode with
  | add | nor => simp
  | load | store | beq => dsimp only; split <;> simp
  | jalr | halt | noop | inert => simp

theorem OnCourse.finishExmem {s : State} {p : Progress} (h : OnCourse s p) (c : Config) :
    OnCourse s (p.andThen (finishExmem c s)) := by
  cases hp : p.2 with
  | false => rwa [Progress.andThen_of_closed hp]
  | true =>
    rw [Progress.andThen_of_open hp]
    have hframe := finishExmem_frame c s p.1
    refine ⟨h.settled.congr hframe, fun ho => ?_, fun ho => ?_, by rw [hframe]; exact h.imem⟩
    · rw [(finishExmem_open ho).2, h.running hp]
    · rw [(finishExmem_open ho).1, h.pc hp]

theorem finishWord_imem (w x : Word) (t : State) : (finishWord w x t).1.imem = t.imem := by
  obtain ⟨e, he⟩ := exec_next (decode w) (t.setPc (x - 1#32))
  have himem : e.imem = t.imem := by rw [exec_frame _ _ _ he]; rfl
  rw [finishWord_next he]
  split
  · exact himem
  · split <;> exact himem

theorem OnCourse.finishWord {s : State} {p : Progress} (h : OnCourse s p) (w x : Word) :
    OnCourse s (p.andThen (finishWord w x)) := by
  cases hp : p.2 with
  | false => rwa [Progress.andThen_of_closed hp]
  | true =>
    rw [Progress.andThen_of_open hp]
    refine ⟨finishWord_settled w x h.settled, fun ho => (finishWord_open w x _ ho).1, fun ho => ?_,
      (finishWord_imem w x _).trans h.imem⟩
    rw [(finishWord_open w x _ ho).2, h.pc hp]

section Course
variable {s : State} (hr : s.status = .running)
include hr

theorem onCourse_afterExmem : OnCourse s (afterExmem s) := (onCourse_afterMemwb hr).finishExmem _

theorem onCourse_afterIdex : OnCourse s (afterIdex s) := (onCourse_afterExmem hr).finishWord _ _

theorem onCourse_finishInFlight : OnCourse s (finishInFlight s) := (onCourse_afterIdex hr).finishWord _ _

end Course

/-- With an open path the sequential view is that of the words in flight as it stands. -/
theorem OnCourse.settle_eq {s : State} {p : Progress} (h : OnCourse s p) (hp : p.2 = true) : settle p.1 = p.1 :=
  h.settled.settle_eq (h.running hp)

/-! What carries over a clock edge -/

/-- The words that `p` has finished before an edge, `p'` has finished after it, where the fetch pc is `q`: the same
view but for that pc while the path is open, and the same settled view once it is closed. -/
def CarriesOver (q : Word) (p p' : Progress) : Prop :=
  (p.2 = true ∧ p' = (p.1.setPc q, true)) ∨ (p.2 = false ∧ p'.2 = false ∧ settle p'.1 = settle p.1)

namespace CarriesOver
variable {q : Word} {p p' : Progress} (h : CarriesOver q p p')
include h

theorem open_eq : p'.2 = p.2 := by
  rcases h with ⟨hp, hp'⟩ | ⟨hp, hp', -⟩ <;> simp [hp, hp']

/-- The fetch pc apart, the two leave the same in every field a settled view keeps. -/
theorem fields_eq : p'.1.reg = p.1.reg ∧ p'.1.dmem = p.1.dmem ∧ p'.1.status = p.1.status := by
  rcases h with ⟨-, hp'⟩ | ⟨-, -, hset⟩
  · rw [hp']
    exact ⟨rfl, rfl, rfl⟩
  · refine ⟨?_, ?_, ?_⟩
    · rw [← settle_reg, hset, settle_reg]
    · rw [← settle_dmem, hset, settle_dmem]
    · rw [← settle_status, hset, settle_status]

/-- The same word finished on both sides carries over. -/
theorem andThen_finishWord (w x : Word) :
    CarriesOver q (p.andThen (finishWord w x)) (p'.andThen (finishWord w x)) := by
  rcases h with ⟨hp, hp'⟩ | ⟨hp, hp', hset⟩
  · rw [hp', Progress.andThen_of_open hp, Progress.andThen_of_open (p := (p.1.setPc q, true)) rfl, finishWord_setPc]
    cases hw : (finishWord w x p.1).2 with
    | true => exact .inl ⟨hw, rfl⟩
    | false => exact .inr ⟨hw, hw, rfl⟩
  · rw [Progress.andThen_of_closed hp, Progress.andThen_of_closed hp']
    exact .inr ⟨hp, hp', hset⟩

end CarriesOver

/-- With consistent latches Execute resolves the operands to the registers of the view with EXMEM finished. -/
theorem LatchFacts.fwd_eq_readReg_afterExmem {s : State} (h : LatchFacts s) {r : RegIdx} {v : Word}
    (hp : (afterMemwb s).2 = true) (hv : v = s.readReg r ∨ s.wbret.dest = some r)
    (hload : s.exmem.opcode = .load → s.exmem.dest ≠ some r) : fwd s r v = (afterExmem s).1.readReg r := by
  rw [h.fwd_eq_by_dest, h.retired_or_read_eq_readReg hv, afterExmem, Progress.andThen_of_open hp,
    finishExmem_readReg h _ r _ hload, afterMemwb, finishMemwb_readReg h]
  rfl

section Committed
variable {s : State} (hc : commits Config.default s = true)
include hc

theorem afterMemwb_open_of_commits : (afterMemwb s).2 = true := by
  obtain ⟨-, hm, -, -⟩ := (commits_iff _ s).1 hc
  obtain ⟨t, ht, -⟩ := finishMemwb_frame hm (settle s)
  rw [afterMemwb, ht]

/-- The state a committed cycle leaves, settled, is the view with MEMWB finished, with the pc and the data memory of
the new state. -/
theorem settle_nextState_of_commits :
    settle (nextState s) = ((afterMemwb s).1.setPc (nextState s).pc).setDmem (nextState s).dmem ∧
      (afterMemwb s).1.dmem = s.dmem := by
  obtain ⟨hr, hm, -, -⟩ := (commits_iff _ s).1 hc
  obtain ⟨t, ht, -, -, -, -, hdmem, hset⟩ := finishMemwb_nextState hm hr
  rw [afterMemwb, ht]
  exact ⟨hset, hdmem⟩

/-- Without a store in the Memory stage the new data memory is that of the view too. -/
theorem settle_nextState_of_not_store (ho : s.exmem.opcode ≠ .store) :
    settle (nextState s) = (afterMemwb s).1.setPc (nextState s).pc := by
  obtain ⟨hset, hdmem⟩ := settle_nextState_of_commits hc
  rw [hset, nextState_dmem_of_not_store ho, ← hdmem]
  rfl

/-- Without a flush the word in EXMEM carries over to MEMWB, a HALT too. -/
theorem afterMemwb_nextState (hb : branchTaken s = false) :
    CarriesOver (nextState s).pc (afterExmem s) (afterMemwb (nextState s)) := by
  obtain ⟨hr, hm, -, hf⟩ := (commits_iff _ s).1 hc
  have hopen := afterMemwb_open_of_commits hc
  by_cases hh : s.exmem.opcode = .halt
  · have hx : afterExmem s = (haltRun (afterMemwb s).1, false) := by
      simp [afterExmem, Progress.andThen_of_open hopen, finishExmem, hh]
    have hn : afterMemwb (nextState s) = (haltRun (settle (nextState s)), false) := by
      simp [afterMemwb, finishMemwb, hh]
    refine .inr ⟨by rw [hx], by rw [hn], ?_⟩
    rw [hx, hn, settle_nextState_of_not_store hc (by simp [hh])]
    exact settle_setPc_of_stopped (t := haltRun (afterMemwb s).1) (by simp) _
  · obtain ⟨t, hx, hn, -⟩ := finishExmem_nextState hf hm hr hh hb
    have hx' : afterExmem s = (t, true) := by rw [afterExmem_eq, Progress.andThen_of_open hopen]; exact hx
    exact .inl ⟨by rw [hx'], by rw [hx']; exact hn⟩

/-- Without a flush the word in IDEX carries over to EXMEM: Execute has resolved its operands right. -/
theorem afterExmem_nextState (hl : LatchFacts s) (hb : branchTaken s = false) :
    CarriesOver (nextState s).pc (afterIdex s) (afterExmem (nextState s)) := by
  obtain ⟨hr, -, -, -⟩ := (commits_iff _ s).1 hc
  have hopen := afterMemwb_open_of_commits hc
  rcases afterMemwb_nextState hc hb with ⟨hp, hn⟩ | ⟨hp, hn, hset⟩
  · obtain ⟨hgo, hend⟩ := finishWord_nextState hl hb (afterExmem s).1 (nextState s).pc
      ((onCourse_afterExmem hr).running hp)
      (fun hu => hl.fwd_eq_readReg_afterExmem hopen (hl.currentA hu) fun ho => hl.separateA ho hu)
      (fun hu hx => hl.fwd_eq_readReg_afterExmem hopen (hl.currentB hu) fun ho => hl.separateB ho hu hx)
    rw [afterIdex_eq, Progress.andThen_of_open hp, afterExmem_eq (nextState s), hn,
      Progress.andThen_of_open (p := (_, true)) rfl]
    cases hw : (finishWord s.idex.instr s.idex.pcPlus1 (afterExmem s).1).2 with
    | true => exact .inl ⟨hw, hgo hw⟩
    | false => exact .inr ⟨hw, hend hw⟩
  · rw [afterIdex_eq, Progress.andThen_of_closed hp, afterExmem_eq (nextState s), Progress.andThen_of_closed hn]
    exact .inr ⟨hp, hn, hset⟩

/-- Without flush and stall the word in IFID carries over to IDEX. -/
theorem afterIdex_nextState_of_flow (hl : LatchFacts s) (hb : branchTaken s = false) (hu : loadUse s = false) :
    CarriesOver (nextState s).pc (finishInFlight s) (afterIdex (nextState s)) := by
  have hidex : (nextState s).idex = decodedLatch s := (nextState_of_flow hb hu).2.2
  rw [finishInFlight_eq, afterIdex_eq (nextState s), hidex]
  exact (afterExmem_nextState hc hl hb).andThen_finishWord _ _

/-- A stall leaves a bubble in IDEX, which adds nothing to the view. -/
theorem afterIdex_nextState_of_stall (hu : loadUse s = true) :
    afterIdex (nextState s) = afterExmem (nextState s) := by
  obtain ⟨hr, -, -, -⟩ := (commits_iff _ s).1 hc
  have hidex : (nextState s).idex = IdEx.bubble := nextState_idex_of_loadUse hu
  rw [afterIdex_eq, hidex]
  exact Progress.andThen_noop opcodeOf_noopWord _ (onCourse_afterExmem ((nextState_status s).trans hr)).running

/-- A stall without a flush holds the word in IFID, which carries over in its place. -/
theorem finishInFlight_nextState_of_stall (hl : LatchFacts s) (hb : branchTaken s = false) (hu : loadUse s = true) :
    CarriesOver (nextState s).pc (finishInFlight s) (finishInFlight (nextState s)) := by
  have hload : s.idex.opcode = .load := ((loadUse_iff s).1 hu).1
  have hifid : (nextState s).ifid = s.ifid := by rw [(nextState_of_stall hb hu).1, ← hl.loadInStep hload]
  rw [finishInFlight_eq, finishInFlight_eq, hifid, afterIdex_nextState_of_stall hc hu]
  exact (afterExmem_nextState hc hl hb).andThen_finishWord _ _

/-- A taken BEQ closes the path at its redirection. -/
theorem afterExmem_of_flush (hb : branchTaken s = true) :
    afterExmem s = ((afterMemwb s).1.setPc s.exmem.branchTarget, false) := by
  obtain ⟨hbeq, heq⟩ := (branchTaken_iff s).1 hb
  rw [afterExmem_eq, Progress.andThen_of_open (afterMemwb_open_of_commits hc), finishExmem, hbeq]
  simp [heq]

/-- After a flush, finishing the BEQ in MEMWB is what finishing it in EXMEM was before, but the path is open again. -/
theorem afterMemwb_nextState_of_flush (hb : branchTaken s = true) :
    afterMemwb (nextState s) = ((afterExmem s).1, true) := by
  obtain ⟨hbeq, -⟩ := (branchTaken_iff s).1 hb
  have hset := settle_nextState_of_not_store hc (by simp [hbeq])
  rw [(nextState_of_flush hb).2.2.2] at hset
  rw [afterExmem_of_flush hc hb, afterMemwb, ← hset]
  simp [finishMemwb, hbeq, isWriter]

/-- A flush leaves nothing else in flight. -/
theorem finishInFlight_nextState_of_flush (hb : branchTaken s = true) :
    afterExmem (nextState s) = ((afterExmem s).1, true) ∧ afterIdex (nextState s) = ((afterExmem s).1, true) ∧
      finishInFlight (nextState s) = ((afterExmem s).1, true) := by
  obtain ⟨hr, -, -, -⟩ := (commits_iff _ s).1 hc
  obtain ⟨hifid, hidex, hexmem, -⟩ := nextState_of_flush hb
  have hr' : (nextState s).status = .running := (nextState_status s).trans hr
  have hx : afterExmem (nextState s) = ((afterExmem s).1, true) := by
    rw [afterExmem_eq, afterMemwb_nextState_of_flush hc hb, Progress.andThen_of_open (p := (_, true)) rfl, finishExmem,
      hexmem]
    rfl
  have hi : afterIdex (nextState s) = afterExmem (nextState s) := by
    rw [afterIdex_eq, hidex]
    exact Progress.andThen_noop opcodeOf_noopWord _ (onCourse_afterExmem hr').running
  have hf : finishInFlight (nextState s) = afterIdex (nextState s) := by
    rw [finishInFlight_eq, hifid]
    exact Progress.andThen_noop opcodeOf_noopWord _ (onCourse_afterIdex hr').running
  exact ⟨hx, hi.trans hx, hf.trans (hi.trans hx)⟩

/-! The sequential view over a committed cycle -/

/-- A flush leaves the sequential view: the words it squashes were behind the taken BEQ. -/
theorem drain_nextState_of_flush (hb : branchTaken s = true) : drain (nextState s) = drain s := by
  obtain ⟨hr, -, -, -⟩ := (commits_iff _ s).1 hc
  have hclosed : (afterExmem s).2 = false := by rw [afterExmem_of_flush hc hb]
  have hi : afterIdex s = afterExmem s := Progress.andThen_of_closed hclosed _
  have hf : finishInFlight s = afterExmem s := by
    rw [finishInFlight_eq, hi, Progress.andThen_of_closed hclosed]
  rw [drain_of_running hr, drain_of_running ((nextState_status s).trans hr),
    (finishInFlight_nextState_of_flush hc hb).2.2, hf]

/-- A stall leaves the sequential view: the word it holds is still the youngest. -/
theorem drain_nextState_of_stall (hl : LatchFacts s) (hb : branchTaken s = false) (hu : loadUse s = true) :
    drain (nextState s) = drain s := by
  obtain ⟨hr, -, -, -⟩ := (commits_iff _ s).1 hc
  rw [drain_of_running hr, drain_of_running ((nextState_status s).trans hr)]
  rcases finishInFlight_nextState_of_stall hc hl hb hu with ⟨hp, hn⟩ | ⟨-, -, hset⟩
  · rw [hn, (nextState_of_stall hb hu).2.1, ← (onCourse_finishInFlight hr).pc hp]
    rfl
  · exact hset

/-- Behind a word that ends the path, the fetched one leaves the sequential view. -/
theorem drain_nextState_of_closed (hl : LatchFacts s) (hb : branchTaken s = false) (hu : loadUse s = false)
    (hp : (finishInFlight s).2 = false) : drain (nextState s) = drain s := by
  obtain ⟨hr, -, -, -⟩ := (commits_iff _ s).1 hc
  rw [drain_of_running hr, drain_of_running ((nextState_status s).trans hr)]
  have hco := afterIdex_nextState_of_flow hc hl hb hu
  have hn := hco.open_eq.trans hp
  rcases hco with ⟨ho, -⟩ | ⟨-, -, hset⟩
  · exact absurd ho (by simp [hp])
  · rw [finishInFlight_eq (nextState s), Progress.andThen_of_closed hn, hset]

/-- On an open path without a stall, the fetched word is executed on the sequential view. -/
theorem drain_nextState_of_open (hl : LatchFacts s) (hu : loadUse s = false) (hp : (finishInFlight s).2 = true) :
    ∃ e, exec (decode (s.imemWord s.pc)) (drain s) = .next e ∧ drain (nextState s) = settle e := by
  obtain ⟨hr, -, -, -⟩ := (commits_iff _ s).1 hc
  have hb : branchTaken s = false := by
    by_contra hb
    rw [Bool.not_eq_false] at hb
    rw [finishInFlight_eq, Progress.andThen_open_iff, afterIdex, Progress.andThen_open_iff,
      afterExmem_of_flush hc hb] at hp
    exact Bool.false_ne_true hp.1.1
  have hon := onCourse_finishInFlight hr
  obtain ⟨e, b, he, hfin⟩ := finishWord_fetch (s.imemWord s.pc) s.pc _ (hon.pc hp) (hon.running hp)
  obtain ⟨hifid, hpc, -⟩ := nextState_of_flow hb hu
  rw [drain_of_running hr, hon.settle_eq hp, drain_of_running ((nextState_status s).trans hr)]
  refine ⟨e, he, ?_⟩
  rcases afterIdex_nextState_of_flow hc hl hb hu with ⟨-, hn⟩ | ⟨hn, -⟩
  · rw [finishInFlight_eq (nextState s), hn, Progress.andThen_of_open (p := (_, true)) rfl, hifid, hpc, hfin]
  · exact absurd hp (by simp [hn])

end Committed

/-- The word Fetch reads is on the path: the block runs, nothing in flight closes the path, and no stall holds. -/
theorem fetchesOnPath_iff (s : State) :
    fetchesOnPath s = true ↔ s.status = .running ∧ (finishInFlight s).2 = true ∧ loadUse s = false := by
  simp [fetchesOnPath, and_assoc]

/-- Behind a HALT in MEMWB the path is closed. -/
theorem afterMemwb_of_halt {s : State} (hm : s.memwb.opcode = .halt) : afterMemwb s = (haltRun (settle s), false) :=
  if_pos hm

theorem finishInFlight_of_halt {s : State} (hm : s.memwb.opcode = .halt) :
    finishInFlight s = (haltRun (settle s), false) := by
  rw [finishInFlight_eq, afterIdex, afterExmem, afterMemwb_of_halt hm]
  rfl

/-- The edge that ends the run at a HALT leaves the sequential view. -/
theorem drain_haltRun {s : State} (hs : s.status = .running) (hm : s.memwb.opcode = .halt) :
    drain (haltRun s) = drain s := by
  rw [drain_of_stopped (by simp), drain_of_running hs, finishInFlight_of_halt hm]
  simp [settle, haltRun, State.setStatus]

/-- An edge of a running block that takes no fault ends the run at a HALT in MEMWB or commits. -/
theorem edge_cases_of_notFaulted {s : State} (hs : s.status = .running)
    (hn : notFaulted (advanceClock Config.default s) = true) :
    (s.memwb.opcode = .halt ∧ advanceClock Config.default s = haltRun s) ∨
      (commits Config.default s = true ∧ advanceClock Config.default s = nextState s) := by
  rcases edge_cases s with h | ⟨-, hm⟩ | ⟨-, hm, f, hf⟩ | hc
  · exact absurd hs h
  · exact .inl ⟨hm, advanceClock_of_halt hs hm⟩
  · rw [advanceClock_of_fault hs hm hf] at hn
    cases hn
  · exact .inr ⟨hc, advanceClock_of_commits hc⟩

/-- Settles O56: a HALT in MEMWB, a flush, a stall and a closed path leave the sequential view, and on an open path
the fetched word is executed on it. -/
theorem stepRunsTheFetchedInstruction : Obligations.StepRunsTheFetchedInstruction := by
  intro s n hcons hs hstep hn
  have hl : LatchFacts s := (latchesConsistent_iff s).1 hcons
  cases hstep
  rcases edge_cases_of_notFaulted hs hn with ⟨hm, hadv⟩ | ⟨hc, hadv⟩
  · have hoff : fetchesOnPath s = false := by simp [fetchesOnPath, finishInFlight_of_halt hm]
    rw [hadv, hoff]
    exact ⟨nofun, fun _ => drain_haltRun hs hm⟩
  · rw [hadv]
    refine ⟨fun hon => ?_, fun hoff => ?_⟩
    · obtain ⟨-, hp, hu⟩ := (fetchesOnPath_iff s).1 hon
      exact drain_nextState_of_open hc hl hu hp
    · cases hb : branchTaken s with
      | true => exact drain_nextState_of_flush hc hb
      | false =>
        cases hu : loadUse s with
        | true => exact drain_nextState_of_stall hc hl hb hu
        | false =>
          have hp : (finishInFlight s).2 = false := by simpa [fetchesOnPath, hs, hu] using hoff
          exact drain_nextState_of_closed hc hl hb hu hp

end Sys2Proof.Machine
end

/-! PROOFS. The reset-and-hazards family (70_reset_and_hazards.md), halted runs: an empty pipeline, the sequential
machine beside a run of the block, the cycles spent off the path, and the statements about runs that end Halted. -/

section
namespace Sys2Proof.Machine

/-! An empty pipeline, such as that of a loaded state -/

/-- A running block with a bubble in every latch. -/
structure EmptyPipeline (s : State) : Prop where
  running : s.status = .running
  ifid : s.ifid = IfId.bubble
  idex : s.idex = IdEx.bubble
  exmem : s.exmem = ExMem.bubble
  memwb : s.memwb = MemWb.bubble
  wbret : s.wbret = WbRet.bubble

namespace EmptyPipeline
variable {s : State} (h : EmptyPipeline s)
include h

/-- Bubbles have the latch invariants whatever the registers and the pc are. -/
theorem latchFacts : LatchFacts s where
  idexOpcode := by rw [h.idex]; rfl
  exmemOpcode := by rw [h.exmem]; rfl
  memwbOpcode := by rw [h.memwb]; rfl
  idexDest := by rw [h.idex]; rfl
  exmemDest := by rw [h.exmem]; rfl
  memwbDest := by rw [h.memwb]; rfl
  wbretDest := by rw [h.wbret]; rfl
  loadInStep := by rw [h.idex]; nofun
  offsetIs := by rw [h.idex]; rfl
  retiredHeld := by rw [h.wbret]; nofun
  currentA := by rw [h.idex]; nofun
  currentB := by rw [h.idex]; nofun
  separateA := by rw [h.exmem]; nofun
  separateB := by rw [h.exmem]; nofun

theorem afterMemwb_eq : afterMemwb s = (settle s, true) := by
  rw [afterMemwb, finishMemwb, h.memwb]
  rfl

theorem afterExmem_eq : afterExmem s = (settle s, true) := by
  rw [Machine.afterExmem_eq, h.afterMemwb_eq, Progress.andThen_of_open (p := (_, true)) rfl, finishExmem, h.exmem]
  rfl

theorem afterIdex_eq : afterIdex s = (settle s, true) := by
  rw [Machine.afterIdex_eq, h.idex, ← h.afterExmem_eq]
  exact Progress.andThen_noop opcodeOf_noopWord _ (onCourse_afterExmem h.running).running

theorem finishInFlight_eq : finishInFlight s = (settle s, true) := by
  rw [Machine.finishInFlight_eq, h.ifid, ← h.afterIdex_eq]
  exact Progress.andThen_noop opcodeOf_noopWord _ (onCourse_afterIdex h.running).running

/-- The sequential view of a block with nothing in flight is the settled block itself. -/
theorem drain_eq : drain s = settle s := by
  rw [drain_of_running h.running, h.finishInFlight_eq, settle_settle]

theorem loadUse_eq : loadUse s = false := loadUse_of_not_load (by rw [h.idex]; decide)

theorem branchTaken_eq : branchTaken s = false := branchTaken_of_not_beq (by rw [h.exmem]; decide)

end EmptyPipeline

/-- A loaded state has an empty pipeline, and is its own sequential view. -/
theorem emptyPipeline_of_loadImage {c : Config} {img : List Word} {s : State} (hs : loadImage c img = .next s) :
    EmptyPipeline s ∧ s.cycles = 0 ∧ drain s = s := by
  rcases loadImage_cases c img with ⟨-, hload⟩ | ⟨-, hload⟩
  · cases hload.symm.trans hs
    have he : EmptyPipeline ((State.reset.setImem (memOfImage img)).setDmem (memOfImage img)) :=
      ⟨rfl, rfl, rfl, rfl, rfl, rfl⟩
    exact ⟨he, rfl, he.drain_eq.trans (Settled.settle_eq ⟨rfl, rfl, rfl, rfl, rfl, rfl⟩ rfl)⟩
  · cases hload.symm.trans hs

/-! The sequential machine (R346) -/

theorem seqStep_of_stopped {t : State} (h : t.status ≠ .running) : seqStep t = .next t := if_pos h

theorem seqRun_succ_of_next {t e : State} (k : Nat) (h : seqStep t = .next e) : seqRun (k + 1) t = seqRun k e := by
  simp [seqRun, h]

/-- An ended run of the sequential machine stays as it is. -/
theorem seqRun_of_stopped {t : State} (h : t.status ≠ .running) (k : Nat) : seqRun k t = .next t := by
  induction k with
  | zero => rfl
  | succ k ih => rw [seqRun_succ_of_next k (seqStep_of_stopped h), ih]

/-- Every step of the sequential machine has a next state. -/
theorem seqStep_next (t : State) : ∃ e, seqStep t = .next e := by
  unfold seqStep
  split
  · exact ⟨_, rfl⟩
  · cases fetchFault Config.default t with
    | some f => exact ⟨takeFault f t, rfl⟩
    | none => exact exec_next _ t

/-- The last step of a run of the sequential machine, split off. -/
theorem seqRun_succ_last {k : Nat} {t u : State} (h : seqRun k t = .next u) : seqRun (k + 1) t = seqStep u := by
  induction k generalizing t with
  | zero =>
    cases h
    obtain ⟨e, he⟩ := seqStep_next u
    rw [seqRun_succ_of_next 0 he, he, seqRun]
  | succ k ih =>
    obtain ⟨e, he⟩ := seqStep_next t
    rw [seqRun_succ_of_next _ he] at h ⊢
    exact ih h

theorem status_eq_of_settle_eq {t u : State} (h : settle t = settle u) : t.status = u.status := by
  rw [← settle_status t, h, settle_status]

/-- A run of the sequential machine from a state without latches is that from the settled state: only an ended one
has another pc there. -/
theorem seqRun_of_settle {e t : State} (he : Settled e) {k : Nat} (h : seqRun k (settle e) = .next t) :
    ∃ u, seqRun k e = .next u ∧ settle u = settle t := by
  by_cases hr : e.status = .running
  · exact ⟨t, by rwa [he.settle_eq hr] at h, rfl⟩
  · rw [seqRun_of_stopped (t := settle e) hr k] at h
    cases h
    exact ⟨e, seqRun_of_stopped hr k, (settle_settle e).symm⟩

/-! The sequential machine beside a run of the block -/

theorem notFaulted_congr {s t : State} (h : s.status = t.status) : notFaulted s = notFaulted t := by
  simp only [notFaulted, h]

theorem notFaulted_of_halted {s : State} (h : s.status = .halted) : notFaulted s = true := by
  simp only [notFaulted, h]

theorem notFaulted_of_running {s : State} (h : s.status = .running) : notFaulted s = true := by
  simp only [notFaulted, h]

/-- A run that has not faulted had not at its start: a fault is final. -/
theorem notFaulted_of_runClock {c : Config} {k : Nat} {s : State} (h : notFaulted (runClock c k s) = true) :
    notFaulted s = true := by
  by_cases hs : s.status = .running
  · exact notFaulted_of_running hs
  · rwa [stoppedBlockStaysFrozen c k s hs] at h

/-- A cycle that fetches a word on the path is a step of the sequential machine on the view. -/
theorem seqStep_drain {s : State} (hl : LatchFacts s) (hc : commits Config.default s = true)
    (hon : fetchesOnPath s = true) :
    ∃ e, seqStep (drain s) = .next e ∧ Settled e ∧ (drain s).status = .running ∧
      drain (nextState s) = settle e := by
  obtain ⟨hr, hp, hu⟩ := (fetchesOnPath_iff s).1 hon
  obtain ⟨e, he, hdrain⟩ := drain_nextState_of_open hc hl hu hp
  have hcourse := onCourse_finishInFlight hr
  have hd : drain s = (finishInFlight s).1 := (drain_of_running hr).trans (hcourse.settle_eq hp)
  have hrun : (drain s).status = .running := hd ▸ hcourse.running hp
  have hpc : (drain s).pc = s.pc := hd ▸ hcourse.pc hp
  have himem : (drain s).imem = s.imem := hd ▸ hcourse.imem
  have hfetch : fetchFault Config.default (drain s) = none := by
    obtain ⟨-, -, -, hf⟩ := (commits_iff _ s).1 hc
    rcases cycleFault_cases Config.default s with ⟨-, -, h⟩ | ⟨-, -, h⟩ | ⟨-, hin, -⟩
    · cases h.symm.trans hf
    · cases h.symm.trans hf
    · simp [fetchFault, hpc, hin]
  have hword : (drain s).imemWord (drain s).pc = s.imemWord s.pc := by rw [State.imemWord, hpc, himem]; rfl
  have hset : Settled (drain s) := by rw [hd]; exact hcourse.settled
  refine ⟨e, ?_, hset.congr (exec_frame _ _ _ he), hrun, hdrain⟩
  simp only [seqStep, hrun, hfetch, hword, he, ne_eq, not_true_eq_false, if_false]

/-- The words on the path that the first `k` edges fetch: the instructions the sequential machine executes. -/
def fetchesIn : Nat → State → Nat
  | 0, _ => 0
  | k + 1, s => (if fetchesOnPath s then 1 else 0) + fetchesIn k (advanceClock Config.default s)

theorem fetchesIn_succ_of_off {s : State} (h : fetchesOnPath s = false) (k : Nat) :
    fetchesIn (k + 1) s = fetchesIn k (advanceClock Config.default s) := by
  simp [fetchesIn, h]

theorem fetchesIn_succ_of_on {s : State} (h : fetchesOnPath s = true) (k : Nat) :
    fetchesIn (k + 1) s = fetchesIn k (advanceClock Config.default s) + 1 := by
  simp [fetchesIn, h, Nat.add_comm]

/-- A stopped block fetches nothing. -/
theorem fetchesOnPath_of_stopped {s : State} (h : s.status ≠ .running) : fetchesOnPath s = false := by
  simp [fetchesOnPath, h]

/-- An edge that fetches no word on the path leaves the sequential view, if it takes no fault. -/
theorem drain_advanceClock_of_off {s : State} (hl : LatchFacts s)
    (hn : notFaulted (advanceClock Config.default s) = true) (hoff : fetchesOnPath s = false) :
    drain (advanceClock Config.default s) = drain s := by
  by_cases hr : s.status = .running
  · obtain ⟨-, hleaves⟩ := stepRunsTheFetchedInstruction s _ ((latchesConsistent_iff s).2 hl) hr (step_eq s) hn
    exact hleaves hoff
  · rw [advanceClock_of_stopped hr]

/-- An edge that fetches a word on the path commits, if it takes no fault. -/
theorem commits_of_on {s : State} (hn : notFaulted (advanceClock Config.default s) = true)
    (hon : fetchesOnPath s = true) : commits Config.default s = true := by
  obtain ⟨hr, hp, -⟩ := (fetchesOnPath_iff s).1 hon
  rcases edge_cases_of_notFaulted hr hn with ⟨hm, -⟩ | ⟨hc, -⟩
  · rw [finishInFlight_of_halt hm] at hp
    cases hp
  · exact hc

/-- The sequential machine, from the view of a run's start, executes the words on the path that the run fetches: it
comes to the view of the run's end, and goes on running until then. -/
theorem seqRun_fetchesIn {k : Nat} {s : State} (hl : LatchFacts s)
    (hn : notFaulted (runClock Config.default k s) = true) :
    (∃ t, seqRun (fetchesIn k s) (drain s) = .next t ∧ settle t = drain (runClock Config.default k s)) ∧
      ∀ i < fetchesIn k s, ∃ t, seqRun i (drain s) = .next t ∧ t.status = .running := by
  induction k generalizing s with
  | zero => exact ⟨⟨drain s, rfl, settle_drain s⟩, nofun⟩
  | succ k ih =>
    rw [runClock_succ] at hn ⊢
    have hn' := notFaulted_of_runClock hn
    obtain ⟨⟨t, ht, hend⟩, hbefore⟩ := ih hl.advanceClock hn
    cases hon : fetchesOnPath s with
    | false =>
      rw [fetchesIn_succ_of_off hon, ← drain_advanceClock_of_off hl hn' hon]
      exact ⟨⟨t, ht, hend⟩, hbefore⟩
    | true =>
      have hc := commits_of_on hn' hon
      obtain ⟨e, he, hset, hrun, hdrain⟩ := seqStep_drain hl hc hon
      rw [advanceClock_of_commits hc] at ht hend hbefore ⊢
      rw [hdrain] at ht hbefore
      rw [fetchesIn_succ_of_on hon, advanceClock_of_commits hc]
      refine ⟨?_, fun i hi => ?_⟩
      · obtain ⟨u, hu, hsu⟩ := seqRun_of_settle hset ht
        exact ⟨u, (seqRun_succ_of_next _ he).trans hu, hsu.trans hend⟩
      · cases i with
        | zero => exact ⟨drain s, rfl, hrun⟩
        | succ i =>
          obtain ⟨v, hv, hvr⟩ := hbefore i (Nat.lt_of_succ_lt_succ hi)
          obtain ⟨u, hu, hsu⟩ := seqRun_of_settle hset hv
          exact ⟨u, (seqRun_succ_of_next _ he).trans hu, (status_eq_of_settle_eq hsu).trans hvr⟩

/-- For a run that ends Halted, the sequential machine ends Halted with the run's registers and data memory. -/
theorem seqRun_fetchesIn_of_halted {k : Nat} {s : State} (hl : LatchFacts s)
    (hh : (runClock Config.default k s).status = .halted) :
    ∃ t, seqRun (fetchesIn k s) (drain s) = .next t ∧ t.status = .halted ∧
      t.reg = (runClock Config.default k s).reg ∧ t.dmem = (runClock Config.default k s).dmem := by
  obtain ⟨⟨t, ht, hend⟩, -⟩ := seqRun_fetchesIn hl (notFaulted_of_halted hh)
  rw [drain_of_stopped (by rw [hh]; decide)] at hend
  refine ⟨t, ht, (status_eq_of_settle_eq hend).trans hh, ?_, ?_⟩
  · rw [← settle_reg t, hend, settle_reg]
  · rw [← settle_dmem t, hend, settle_dmem]

/-- Settles O57: the sequential machine executes the words on the path that the run fetches. -/
theorem haltedRunAgreesWithTheSequentialMachine : Obligations.HaltedRunAgreesWithTheSequentialMachine := by
  intro img s k hload hh
  obtain ⟨hempty, -, hview⟩ := emptyPipeline_of_loadImage hload
  obtain ⟨t, ht, hrest⟩ := seqRun_fetchesIn_of_halted hempty.latchFacts hh
  rw [hview] at ht
  exact ⟨fetchesIn k s, t, ht, hrest⟩

/-! The cycles off the path (R349): what a committed cycle pays for -/

/-- 1 if the path is closed, else 0. -/
def Progress.closed (p : Progress) : Nat := if p.2 then 0 else 1

theorem Progress.closed_congr {p q : Progress} (h : p.2 = q.2) : p.closed = q.closed := by
  simp only [Progress.closed, h]

theorem Progress.closed_of_open {p : Progress} (h : p.2 = true) : p.closed = 0 := if_pos h

theorem Progress.closed_of_closed {p : Progress} (h : p.2 = false) : p.closed = 1 := if_neg (ne_true_of_eq_false h)

theorem Progress.andThen_closed_of_closed {p : Progress} (h : p.2 = false) (f : State → Progress) :
    (p.andThen f).2 = false := by rwa [Progress.andThen_of_closed h]

/-- The cycles computed since the word that closed the path was fetched: a closing word in IDEX is one latch past
IFID, one in EXMEM two, one in MEMWB three, and it closes the path for every latch it has gone past. -/
def offPath (s : State) : Nat := (afterMemwb s).closed + (afterExmem s).closed + (afterIdex s).closed

theorem EmptyPipeline.offPath_eq {s : State} (h : EmptyPipeline s) : offPath s = 0 := by
  rw [offPath, h.afterMemwb_eq, h.afterExmem_eq, h.afterIdex_eq]
  rfl

/-- A HALT in MEMWB has been off the path for three cycles. -/
theorem offPath_of_halt {s : State} (hm : s.memwb.opcode = .halt) : offPath s = 3 := by
  rw [offPath, afterIdex_eq, afterExmem_eq, afterMemwb_of_halt hm]
  rfl

/-- A LOAD closes the path only by its fault. -/
theorem notFaulted_finishWord_of_load {w x : Word} {t : State} (hw : opcodeOf w = .load) (ht : t.status = .running)
    (hclosed : (finishWord w x t).2 = false) : notFaulted (finishWord w x t).1 = false := by
  have hd : decode w = .lw (fieldA w) (fieldB w) (fieldC w) := by rw [decode_of_op, hw]
  have he := exec_lw (fieldA w) (fieldB w) (fieldC w) (t.setPc (x - 1#32))
  rw [← hd] at he
  have hred : redirects (decode w) t = false := by rw [hd]; rfl
  rcases loadWord_cases Config.default (fieldA w) (fieldB w) (fieldC w) (t.setPc (x - 1#32)) with ⟨-, h⟩ | ⟨-, h⟩
  · rw [finishWord_next he, h, hred] at hclosed
    simp [ht] at hclosed
  · rw [finishWord_next he, h, if_pos (by simp)]
    rfl

theorem stallCounts_iff (c : Config) (s : State) : stallCounts c s = true ↔
    commits c s = true ∧ loadUse s = true ∧ branchTaken s = false ∧ s.exmem.opcode ≠ .halt := by
  simp [stallCounts, and_assoc]

/-- An edge that commits nothing counts neither as a stall nor as a branch. -/
theorem counts_of_not_commits {c : Config} {s : State} (h : commits c s = false) :
    stallCounts c s = false ∧ branchCounts c s = false := by
  simp [stallCounts, branchCounts, h]

section Committed
variable {s : State} (hc : commits Config.default s = true)
include hc

/-- In a committed cycle without a flush, only a HALT in EXMEM closes the path there. -/
theorem afterExmem_open_of_commits (hh : s.exmem.opcode ≠ .halt) (hb : branchTaken s = false) :
    (afterExmem s).2 = true := by
  obtain ⟨hr, hm, -, hf⟩ := (commits_iff _ s).1 hc
  obtain ⟨t, ht, -⟩ := finishExmem_nextState hf hm hr hh hb
  rw [afterExmem_eq, Progress.andThen_of_open (afterMemwb_open_of_commits hc)]
  exact congrArg Prod.snd ht

/-- Without a flush every latch moves on, so what is off the path grows by what comes to IDEX. -/
theorem offPath_nextState_of_not_taken (hl : LatchFacts s) (hb : branchTaken s = false) :
    offPath (nextState s) = offPath s + (afterIdex (nextState s)).closed := by
  have hm := Progress.closed_congr (afterMemwb_nextState hc hb).open_eq
  have hx := Progress.closed_congr (afterExmem_nextState hc hl hb).open_eq
  have ho := Progress.closed_of_open (afterMemwb_open_of_commits hc)
  simp only [offPath, hm, hx, ho]
  omega

/-- A taken BEQ ends two cycles off the path with a third. -/
theorem offPath_of_flush (hb : branchTaken s = true) : offPath s = 2 ∧ offPath (nextState s) = 0 := by
  have hx : (afterExmem s).2 = false := by rw [afterExmem_of_flush hc hb]
  obtain ⟨hx', hi', -⟩ := finishInFlight_nextState_of_flush hc hb
  refine ⟨?_, ?_⟩
  · rw [offPath, Progress.closed_of_open (afterMemwb_open_of_commits hc), Progress.closed_of_closed hx, afterIdex_eq,
      Progress.closed_of_closed (Progress.andThen_closed_of_closed hx _)]
  · rw [offPath, hx', hi', afterMemwb_nextState_of_flush hc hb]
    rfl

/-- A stall counts, or it holds words behind a HALT: the LOAD that causes it closes no path but by a fault. -/
theorem stall_or_closed (hl : LatchFacts s) (hb : branchTaken s = false) (hu : loadUse s = true)
    (hd : notFaulted (drain s) = true) :
    (if stallCounts Config.default s then 1 else 0) + (afterIdex (nextState s)).closed = 1 := by
  obtain ⟨hr, -, -, -⟩ := (commits_iff _ s).1 hc
  have hi : (afterIdex (nextState s)).closed = (afterIdex s).closed := by
    rw [afterIdex_nextState_of_stall hc hu]
    exact Progress.closed_congr (afterExmem_nextState hc hl hb).open_eq
  rw [hi]
  by_cases hh : s.exmem.opcode = .halt
  · have hx : (afterExmem s).2 = false := by
      simp [afterExmem_eq, Progress.andThen_of_open (afterMemwb_open_of_commits hc), finishExmem, hh]
    rw [afterIdex_eq, Progress.closed_of_closed (Progress.andThen_closed_of_closed hx _)]
    simp [stallCounts, hh]
  · have hx := afterExmem_open_of_commits hc hh hb
    have hopen : (afterIdex s).2 = true := by
      by_contra hclosed
      rw [Bool.not_eq_true] at hclosed
      have hload : opcodeOf s.idex.instr = .load := hl.idexOpcode ▸ ((loadUse_iff s).1 hu).1
      rw [drain_of_running hr, finishInFlight_eq, Progress.andThen_of_closed hclosed] at hd
      rw [afterIdex_eq, Progress.andThen_of_open hx] at hclosed hd
      have hfault := notFaulted_finishWord_of_load hload ((onCourse_afterExmem hr).running hx) hclosed
      rw [notFaulted_congr (settle_status _), hfault] at hd
      cases hd
    rw [Progress.closed_of_open hopen, if_pos ((stallCounts_iff _ s).2 ⟨hc, hu, hb, hh⟩)]

/-- What a committed cycle pays for: a word on the path, a stall, a third of a taken BEQ, or a cycle towards the end
of the path's closing word. -/
theorem offPath_nextState (hl : LatchFacts s) (hd : notFaulted (drain s) = true) :
    offPath s + 1 = (if fetchesOnPath s then 1 else 0) + (if stallCounts Config.default s then 1 else 0) +
      3 * (if branchCounts Config.default s then 1 else 0) + offPath (nextState s) := by
  obtain ⟨hr, -, -, -⟩ := (commits_iff _ s).1 hc
  cases hb : branchTaken s with
  | true =>
    have hx : (afterExmem s).2 = false := by rw [afterExmem_of_flush hc hb]
    have hoff : fetchesOnPath s = false := by
      rw [fetchesOnPath, finishInFlight_eq, Progress.andThen_closed_of_closed]
      · simp
      · exact Progress.andThen_closed_of_closed hx _
    obtain ⟨h2, h0⟩ := offPath_of_flush hc hb
    simp [hoff, stallCounts, branchCounts, hb, hc, h2, h0]
  | false =>
    have hnext := offPath_nextState_of_not_taken hc hl hb
    cases hu : loadUse s with
    | true =>
      have hstall := stall_or_closed hc hl hb hu hd
      simp only [fetchesOnPath, hu, branchCounts, hb]
      simp only [Bool.not_true, Bool.and_false, Bool.false_eq_true, if_false]
      omega
    | false =>
      have hi := Progress.closed_congr (afterIdex_nextState_of_flow hc hl hb hu).open_eq
      have hfetch : (if fetchesOnPath s then 1 else 0) + (finishInFlight s).closed = 1 := by
        cases hp : (finishInFlight s).2 <;> simp [fetchesOnPath, Progress.closed, hr, hu, hp]
      simp only [stallCounts, hu, branchCounts, hb]
      simp only [Bool.and_false, Bool.false_and, Bool.false_eq_true, if_false]
      omega

end Committed

/-- The view of a state from which the block runs to Halted has not faulted: the sequential machine would stay there. -/
theorem notFaulted_drain_of_halted {k : Nat} {s : State} (hl : LatchFacts s)
    (hh : (runClock Config.default k s).status = .halted) : notFaulted (drain s) = true := by
  by_cases hr : (drain s).status = .running
  · exact notFaulted_of_running hr
  · obtain ⟨t, ht, hth, -⟩ := seqRun_fetchesIn_of_halted hl hh
    rw [seqRun_of_stopped hr] at ht
    cases ht
    exact notFaulted_of_halted hth

/-- What the cycles of a run that ends Halted pay for, from any state of the run. -/
theorem cycles_of_halted_run {k : Nat} {s : State} (hl : LatchFacts s)
    (hs : s.status = .halted → s.memwb.opcode = .halt) (hh : (runClock Config.default k s).status = .halted) :
    (runClock Config.default k s).cycles + offPath s =
      s.cycles + fetchesIn k s + stallsIn Config.default k s + 3 * branchesIn Config.default k s + 3 := by
  induction k generalizing s with
  | zero => simp [fetchesIn, stallsIn, branchesIn, offPath_of_halt (hs hh)]
  | succ k ih =>
    have hd := notFaulted_drain_of_halted hl hh
    rw [runClock_succ] at hh ⊢
    have hrest := ih hl.advanceClock
    simp only [fetchesIn, stallsIn, branchesIn]
    by_cases hr : s.status = .running
    · have hn := notFaulted_of_runClock (notFaulted_of_halted hh)
      rcases edge_cases_of_notFaulted hr hn with ⟨hm, hadv⟩ | ⟨hc, hadv⟩
      · have hnc : commits Config.default s = false := by simp [commits, hm]
        obtain ⟨hstall, hbranch⟩ := counts_of_not_commits hnc
        have hoff : fetchesOnPath s = false := by simp [fetchesOnPath, finishInFlight_of_halt hm]
        have hend := hrest (fun _ => by rw [hadv]; exact hm) hh
        have h3 : offPath (haltRun s) = 3 := offPath_of_halt hm
        rw [hadv] at hend ⊢
        rw [h3, haltRun_cycles] at hend
        simp only [hstall, hbranch, hoff, offPath_of_halt hm, Bool.false_eq_true, if_false]
        omega
      · have hpays := offPath_nextState hc hl hd
        have hend := hrest (fun h => by rw [hadv, nextState_status, hr] at h; cases h) hh
        rw [hadv] at hend ⊢
        rw [nextState_cycles] at hend
        omega
    · have hnc : commits Config.default s = false := by simp [commits, hr]
      obtain ⟨hstall, hbranch⟩ := counts_of_not_commits hnc
      have hadv : advanceClock Config.default s = s := advanceClock_of_stopped hr
      have hend := hrest (by rwa [hadv]) hh
      rw [hadv] at hend ⊢
      simp only [hstall, hbranch, fetchesOnPath_of_stopped hr, Bool.false_eq_true, if_false]
      omega

/-- Settles O58: the last word on the path is the HALT, and its three cycles after Fetch end the run. -/
theorem cycleCountOfAHaltedRun : Obligations.CycleCountOfAHaltedRun := by
  intro img s k hload hh
  obtain ⟨hempty, hzero, hview⟩ := emptyPipeline_of_loadImage hload
  have hl := hempty.latchFacts
  obtain ⟨u, hu, hhalted, -⟩ := seqRun_fetchesIn_of_halted hl hh
  obtain ⟨-, hbefore⟩ := seqRun_fetchesIn hl (notFaulted_of_halted hh)
  have hcycles := cycles_of_halted_run hl (fun h => by rw [hempty.running] at h; cases h) hh
  rw [hempty.offPath_eq, hzero] at hcycles
  rw [hview] at hu hbefore
  obtain ⟨j, hj⟩ : ∃ j, fetchesIn k s = j + 1 := by
    refine Nat.exists_eq_succ_of_ne_zero fun h0 => ?_
    rw [h0] at hu
    cases hu
    rw [hempty.running] at hhalted
    cases hhalted
  obtain ⟨t, ht, hrunning⟩ := hbefore j (by omega)
  rw [hj, seqRun_succ_last ht] at hu
  exact ⟨j, t, u, ht, hrunning, hu, hhalted, by omega⟩

end Sys2Proof.Machine
end

/-! PROOFS. The reset-and-hazards family (70_reset_and_hazards.md), one word in an empty pipeline: the cycles in which
only bubbles retire, the word's own Memory and Writeback cycles, and the statements about them. -/

section
namespace Sys2Proof.Machine

theorem runClock_succ_of_commits {c : Config} {k : Nat} {s : State} (h : commits c (runClock c k s) = true) :
    runClock c (k + 1) s = nextState (runClock c k s) := by
  rw [runClock_succ_last, advanceClock_of_commits h]

theorem CarriesOver.trans {q q' : Word} {p p' p'' : Progress} (h : CarriesOver q p p') (h' : CarriesOver q' p' p'') :
    CarriesOver q' p p'' := by
  rcases h with ⟨hp, rfl⟩ | ⟨hp, hp', hset⟩
  · rcases h' with ⟨-, h'⟩ | ⟨h', -⟩
    · exact .inl ⟨hp, h'⟩
    · cases h'
  · rcases h' with ⟨h', -⟩ | ⟨-, hp'', hset'⟩
    · rw [hp'] at h'
      cases h'
    · exact .inr ⟨hp, hp'', hset'.trans hset⟩

/-- A word that redirects closes the path. -/
theorem finishWord_closed_of_redirects {w : Word} {t : State} (h : redirects (decode w) t = true) (x : Word) :
    (finishWord w x t).2 = false := by
  obtain ⟨e, he⟩ := exec_next (decode w) (t.setPc (x - 1#32))
  rw [finishWord_next he, h]
  split <;> rfl

/-! The cycles in which only bubbles retire -/

/-- The youngest word in flight is the one in IFID. -/
theorem opInFlight_three (s : State) : opInFlight s 3 = opcodeOf s.ifid.instr := rfl

/-- In a run of committed cycles the word in the `i`-th place was, `k` cycles before, `k` places younger, or it is
a bubble. -/
theorem opInFlight_runClock {c : Config} {s : State} (m k : Nat) {i : Nat} (hk : i + k ≤ 3)
    (hc : ∀ j < m + k, commits c (runClock c j s) = true) :
    opInFlight (runClock c (m + k) s) i = opInFlight (runClock c m s) (i + k) ∨
      opInFlight (runClock c (m + k) s) i = .noop := by
  induction k generalizing i with
  | zero => exact .inl rfl
  | succ k ih =>
    rw [← Nat.add_assoc, runClock_succ_of_commits (hc (m + k) (by omega))]
    rcases opInFlight_nextState (runClock c (m + k) s) (i := i) (by omega) with ho | ho
    · rw [ho, show i + (k + 1) = i + 1 + k by omega]
      exact ih (by omega) fun j hj => hc j (by omega)
    · exact .inr ho

/-- An index inside the default instruction memory is no fetch fault. -/
theorem fetchFault_of_lt {s : State} (hpc : s.pc.toNat < 65536) : fetchFault Config.default s = none :=
  if_pos ((inRange_iff_toNat_lt (by decide)).2 hpc)

/-- With no data access in the Memory stage, an edge of a running block commits while the pc is inside the default
instruction memory. -/
theorem commits_of_no_access {s : State} (hr : s.status = .running) (hm : s.memwb.opcode ≠ .halt)
    (hx : accessesData s.exmem.opcode = false) (hpc : s.pc.toNat < 65536) : commits Config.default s = true :=
  (commits_iff _ s).2 ⟨hr, hm, rfl, (cycleFault_of_no_access _ hx).trans (fetchFault_of_lt hpc)⟩

/-- The `k` oldest words in flight are NOOPs, such as bubbles. -/
def OldestAreNoops (k : Nat) (s : State) : Prop := ∀ i < k, opInFlight s i = .noop

theorem OldestAreNoops.nextState {k : Nat} {s : State} (h : OldestAreNoops (k + 1) s) (hk : k < 4) :
    OldestAreNoops k (nextState s) := fun i hi =>
  (opInFlight_nextState s (i := i) (by omega)).elim (fun ho => ho.trans (h (i + 1) (by omega))) id

/-- Without a flush the pc advances by one at most. -/
theorem nextState_pc_le {s : State} (hb : branchTaken s = false) : (nextState s).pc.toNat ≤ s.pc.toNat + 1 := by
  rw [nextState_pc, hb, pc_rollback]
  cases loadUse s with
  | true => exact Nat.le_succ _
  | false => exact (BitVec.toNat_add s.pc 1#32).trans_le (Nat.mod_le _ _)

/-- Where a run is, `j` cycles after it left `s₀` with an empty pipeline: the `4 - j` oldest words are still bubbles,
so the registers and data memory are those of `s₀`. -/
structure QuietSince (s₀ : State) (j : Nat) (s : State) : Prop where
  running : s.status = .running
  latchFacts : LatchFacts s
  noops : OldestAreNoops (4 - j) s
  pc : s.pc.toNat ≤ s₀.pc.toNat + j
  cycles : s.cycles = s₀.cycles + j
  reg : s.reg = s₀.reg
  dmem : s.dmem = s₀.dmem
  imem : s.imem = s₀.imem

namespace QuietSince
variable {s₀ s : State} {j : Nat} (h : QuietSince s₀ j s)
include h

theorem memwb_noop (hj : j ≤ 3) : s.memwb.opcode = .noop := h.noops 0 (by omega)

theorem exmem_noop (hj : j ≤ 2) : s.exmem.opcode = .noop := h.noops 1 (by omega)

theorem idex_noop (hj : j ≤ 1) : s.idex.opcode = .noop := h.noops 2 (by omega)

theorem pc_lt (hpc : s₀.pc.toNat + j < 65536) : s.pc.toNat < 65536 := Nat.lt_of_le_of_lt h.pc hpc

/-- Until the fourth cycle nothing in the Memory stage can fault. -/
theorem commits (hj : j ≤ 2) (hpc : s₀.pc.toNat + j < 65536) : commits Config.default s = true :=
  commits_of_no_access h.running (by simp [h.memwb_noop (by omega)]) (by rw [h.exmem_noop hj]; rfl) (h.pc_lt hpc)

theorem not_taken (hj : j ≤ 2) : branchTaken s = false := branchTaken_of_not_beq (by simp [h.exmem_noop hj])

theorem not_loadUse (hj : j ≤ 1) : loadUse s = false := loadUse_of_not_load (by simp [h.idex_noop hj])

theorem nextState (hj : j ≤ 2) : QuietSince s₀ (j + 1) (nextState s) where
  running := (nextState_status s).trans h.running
  latchFacts := h.latchFacts.nextState
  noops := OldestAreNoops.nextState (by rw [show 4 - (j + 1) + 1 = 4 - j by omega]; exact h.noops) (by omega)
  pc := (nextState_pc_le (h.not_taken hj)).trans (Nat.succ_le_succ h.pc)
  cycles := by rw [nextState_cycles, h.cycles, Nat.add_assoc]
  reg := by rw [nextState_reg_of_not_writer (by rw [h.memwb_noop (by omega)]; rfl), h.reg]
  dmem := by rw [nextState_dmem_of_not_store (by simp [h.exmem_noop hj]), h.dmem]
  imem := by rw [nextState_imem, h.imem]

end QuietSince

namespace EmptyPipeline
variable {s : State} (h : EmptyPipeline s)
include h

theorem quietSince : QuietSince s 0 s where
  running := h.running
  latchFacts := h.latchFacts
  noops i hi := by
    match i, hi with
    | 0, _ => exact congrArg MemWb.opcode h.memwb
    | 1, _ => exact congrArg ExMem.opcode h.exmem
    | 2, _ => exact congrArg IdEx.opcode h.idex
    | 3, _ => rw [opInFlight_three, h.ifid, IfId.bubble, opcodeOf_noopWord]
  pc := Nat.le_refl _
  cycles := rfl
  reg := rfl
  dmem := rfl
  imem := rfl

/-- Through the first three cycles only bubbles retire. -/
theorem quietSince_runClock {j : Nat} (hj : j ≤ 3) (hpc : s.pc.toNat + j ≤ 65536) :
    QuietSince s j (runClock Config.default j s) := by
  induction j with
  | zero => exact h.quietSince
  | succ j ih =>
    have hq := ih (by omega) (by omega)
    rw [runClock_succ_of_commits (hq.commits (by omega) (by omega))]
    exact hq.nextState (by omega)

/-- Each of the first three edges leads to the next state of its cycle. -/
theorem runClock_succ_eq {j : Nat} (hj : j ≤ 2) (hpc : s.pc.toNat + j < 65536) :
    runClock Config.default (j + 1) s = nextState (runClock Config.default j s) :=
  runClock_succ_of_commits ((h.quietSince_runClock (by omega) (by omega)).commits hj hpc)

/-- The first cycle fetches the word at the pc. -/
theorem ifid_runClock_one (hpc : s.pc.toNat < 65536) :
    (runClock Config.default 1 s).ifid = { instr := s.imemWord s.pc, pcPlus1 := s.pc + 1#32 } ∧
      (runClock Config.default 1 s).pc = s.pc + 1#32 := by
  obtain ⟨hifid, hnext, -⟩ := nextState_of_flow h.branchTaken_eq h.loadUse_eq
  rw [h.runClock_succ_eq (j := 0) (by omega) hpc]
  exact ⟨hifid, hnext⟩

/-- The second cycle fetches the word after it. -/
theorem ifid_runClock_two (hpc : s.pc.toNat + 1 < 65536) :
    (runClock Config.default 2 s).ifid.instr = memRead s.imem (s.pc.toNat + 1) := by
  have hq := h.quietSince_runClock (j := 1) (by omega) (by omega)
  obtain ⟨hifid, -, -⟩ := nextState_of_flow (hq.not_taken (by omega)) (hq.not_loadUse (by omega))
  rw [h.runClock_succ_eq (j := 1) (by omega) hpc, hifid, State.imemWord, hq.imem, (h.ifid_runClock_one (by omega)).2,
    BitVec.toNat_add_of_lt (by simp; omega)]
  rfl

/-- After three cycles the word fetched in the first is in EXMEM, and the view with it finished is what `exec` of it
leaves. -/
theorem carriesOver_runClock_three (hpc : s.pc.toNat + 2 < 65536) :
    ∃ e b, exec (decode (s.imemWord s.pc)) (settle s) = .next e ∧
      (redirects (decode (s.imemWord s.pc)) s = true → b = false) ∧
      CarriesOver (runClock Config.default 3 s).pc (e, b) (afterExmem (runClock Config.default 3 s)) := by
  have hq := h.quietSince
  have hq1 := h.quietSince_runClock (j := 1) (by omega) (by omega)
  have hq2 := h.quietSince_runClock (j := 2) (by omega) (by omega)
  have h1 := h.runClock_succ_eq (j := 0) (by omega) (by omega)
  have h2 := h.runClock_succ_eq (j := 1) (by omega) (by omega)
  have h3 := h.runClock_succ_eq (j := 2) (by omega) hpc
  obtain ⟨hifid, hpc1⟩ := h.ifid_runClock_one (by omega)
  have hset : (settle s).pc = s.pc := settle_pc_running s h.running
  obtain ⟨e, b, he, hfin⟩ := finishWord_fetch (s.imemWord s.pc) s.pc (settle s) hset h.running
  have hidex : afterIdex (runClock Config.default 1 s) = ((settle s).setPc (s.pc + 1#32), true) := by
    have hco := afterIdex_nextState_of_flow (hq.commits (by omega) (by omega)) h.latchFacts h.branchTaken_eq
      h.loadUse_eq
    rw [h.finishInFlight_eq] at hco
    rw [h1]
    rcases hco with ⟨-, hco⟩ | ⟨hco, -⟩
    · rw [← hpc1, h1]
      exact hco
    · cases hco
  have hall : finishInFlight (runClock Config.default 1 s) = (e, b) := by
    rw [Machine.finishInFlight_eq, hidex, hifid, Progress.andThen_of_open (p := (_, true)) rfl, hfin]
  refine ⟨e, b, he, fun hred => ?_, ?_⟩
  · have hclosed := finishWord_closed_of_redirects (t := (settle s).setPc (s.pc + 1#32)) hred (s.pc + 1#32)
    rwa [hfin] at hclosed
  · have hdecode := afterIdex_nextState_of_flow (hq1.commits (by omega) (by omega)) hq1.latchFacts
      (hq1.not_taken (by omega)) (hq1.not_loadUse (by omega))
    have hexecute := afterExmem_nextState (hq2.commits (by omega) hpc) hq2.latchFacts (hq2.not_taken (by omega))
    rw [← h2, hall] at hdecode
    rw [← h3] at hexecute
    exact hdecode.trans hexecute

end EmptyPipeline

/-! The Memory cycle of the word in EXMEM -/

/-- Finishing EXMEM takes the fault the Memory stage raises, if any, and no other. -/
theorem finishExmem_fault_cases (c : Config) (s : State) {t : State} (ht : t.status = .running) :
    (∃ f, memoryFault c s = some f ∧ finishExmem c s t = (takeFault f t, false)) ∨
      (memoryFault c s = none ∧ notFaulted (finishExmem c s t).1 = true) := by
  have hn : notFaulted t = true := notFaulted_of_running ht
  unfold memoryFault finishExmem
  cases s.exmem.opcode with
  | load =>
    cases inRange c.dmemWords s.exmem.aluResult with
    | false => exact .inl ⟨_, rfl, rfl⟩
    | true => exact .inr ⟨rfl, (notFaulted_congr (State.writeDest_status ..)).trans hn⟩
  | store =>
    cases inRange c.dmemWords s.exmem.aluResult with
    | false => exact .inl ⟨_, rfl, rfl⟩
    | true => exact .inr ⟨rfl, hn⟩
  | add | nor => exact .inr ⟨rfl, (notFaulted_congr (State.writeDest_status ..)).trans hn⟩
  | beq => exact .inr ⟨rfl, by dsimp only; split <;> exact hn⟩
  | halt => exact .inr ⟨rfl, rfl⟩
  | jalr | noop | inert => exact .inr ⟨rfl, hn⟩

section MemoryCycle
variable {s : State}

/-- A NOOP in MEMWB leaves the settled block. -/
theorem afterMemwb_of_noop (hm : s.memwb.opcode = .noop) : afterMemwb s = (settle s, true) := by
  simp [afterMemwb, finishMemwb, hm, isWriter]

theorem afterExmem_of_memwb_noop (hm : s.memwb.opcode = .noop) :
    afterExmem s = finishExmem Config.default s (settle s) := by
  rw [afterExmem_eq, afterMemwb_of_noop hm, Progress.andThen_of_open (p := (_, true)) rfl]

/-- If the view with EXMEM finished has not faulted, the cycle commits. -/
theorem commits_of_afterExmem_notFaulted (hr : s.status = .running) (hm : s.memwb.opcode = .noop)
    (hpc : s.pc.toNat < 65536) (hx : notFaulted (afterExmem s).1 = true) :
    commits Config.default s = true := by
  rw [afterExmem_of_memwb_noop hm] at hx
  refine (commits_iff _ s).2 ⟨hr, by simp [hm], rfl, ?_⟩
  rcases finishExmem_fault_cases Config.default s (t := settle s) hr with ⟨f, -, hf⟩ | ⟨hnone, -⟩
  · rw [hf] at hx
    cases hx
  · simp [cycleFault, hnone, fetchFault_of_lt hpc]

/-- If the view with EXMEM finished has faulted, the cycle takes that fault. -/
theorem advanceClock_of_afterExmem_faulted (hr : s.status = .running) (hm : s.memwb.opcode = .noop) {f : Fault}
    {j : Nat} (hx : (afterExmem s).1.status = .faulted f j) :
    advanceClock Config.default s = takeFault f s ∧ (afterExmem s).1.reg = s.reg ∧ (afterExmem s).1.dmem = s.dmem := by
  rw [afterExmem_of_memwb_noop hm] at hx ⊢
  rcases finishExmem_fault_cases Config.default s (t := settle s) hr with ⟨g, hg, hfin⟩ | ⟨-, hn⟩
  · rw [hfin] at hx ⊢
    obtain ⟨rfl, -⟩ : g = f ∧ _ = j := by simpa using hx
    exact ⟨advanceClock_of_fault hr (by simp [hm]) (by simp [cycleFault, hg]), rfl, rfl⟩
  · rw [notFaulted, hx] at hn
    cases hn

/-- Finishing MEMWB is no data access. -/
theorem afterMemwb_dmem (s : State) : (afterMemwb s).1.dmem = s.dmem := by
  by_cases hm : s.memwb.opcode = .halt
  · rw [afterMemwb_of_halt hm]
    rfl
  · obtain ⟨t, ht, hframe⟩ := finishMemwb_frame hm (settle s)
    rw [afterMemwb, ht, hframe]
    rfl

/-- A committed cycle writes the registers that finishing MEMWB does. -/
theorem nextState_reg_eq_afterMemwb (hc : commits Config.default s = true) :
    (nextState s).reg = (afterMemwb s).1.reg := by
  rw [← settle_reg, (settle_nextState_of_commits hc).1]
  rfl

/-- Only a HALT in MEMWB makes finishing it end the run. -/
theorem memwb_halt_of_afterMemwb_halted (hr : s.status = .running) (h : (afterMemwb s).1.status = .halted) :
    s.memwb.opcode = .halt := by
  by_contra hm
  obtain ⟨t, ht, hframe⟩ := finishMemwb_frame hm (settle s)
  rw [afterMemwb, ht, hframe, settle_status, hr] at h
  cases h

/-- Whether it is flushed or not, a committed cycle takes what finishing EXMEM leaves to the view with MEMWB
finished. -/
theorem afterMemwb_nextState_fields (hc : commits Config.default s = true) :
    (afterMemwb (nextState s)).1.reg = (afterExmem s).1.reg ∧
      (afterMemwb (nextState s)).1.dmem = (afterExmem s).1.dmem ∧
      (afterMemwb (nextState s)).1.status = (afterExmem s).1.status := by
  cases hb : branchTaken s with
  | true =>
    rw [afterMemwb_nextState_of_flush hc hb]
    exact ⟨rfl, rfl, rfl⟩
  | false => exact (afterMemwb_nextState hc hb).fields_eq

/-- A path that EXMEM closes without ending the run is closed by a taken BEQ, and the flush goes to the pc of the
view. -/
theorem nextState_pc_of_redirection (hc : commits Config.default s = true) (hclosed : (afterExmem s).2 = false)
    (hrun : (afterExmem s).1.status = .running) : (nextState s).pc = (afterExmem s).1.pc := by
  have hb : branchTaken s = true := by
    by_contra hb
    rw [Bool.not_eq_true] at hb
    by_cases hh : s.exmem.opcode = .halt
    · rw [afterExmem_eq, Progress.andThen_of_open (afterMemwb_open_of_commits hc), finishExmem, hh] at hrun
      cases hrun
    · rw [afterExmem_open_of_commits hc hh hb] at hclosed
      cases hclosed
  rw [(nextState_of_flush hb).2.2.2, afterExmem_of_flush hc hb]
  rfl

end MemoryCycle

/-! The two last cycles of a word that was fetched into an empty pipeline -/

namespace EmptyPipeline
variable {s e : State} (h : EmptyPipeline s) (hpc : s.pc.toNat + 3 < 65536)
  (he : exec (decode (s.imemWord s.pc)) (settle s) = .next e)
include h hpc he

/-- The view with EXMEM finished, three cycles after the word's Fetch, is what `exec` of the word leaves. -/
theorem afterExmem_runClock_three :
    (afterExmem (runClock Config.default 3 s)).1.reg = e.reg ∧
      (afterExmem (runClock Config.default 3 s)).1.dmem = e.dmem ∧
      (afterExmem (runClock Config.default 3 s)).1.status = e.status := by
  obtain ⟨e', b, he', -, hco⟩ := h.carriesOver_runClock_three (by omega)
  cases he.symm.trans he'
  exact hco.fields_eq

/-- Unless the word faults, its Memory cycle commits. -/
theorem commits_runClock_three (hn : notFaulted e = true) :
    commits Config.default (runClock Config.default 3 s) = true := by
  have hq := h.quietSince_runClock (j := 3) (by omega) (by omega)
  obtain ⟨-, -, hstatus⟩ := h.afterExmem_runClock_three hpc he
  exact commits_of_afterExmem_notFaulted hq.running (hq.memwb_noop (by omega)) (hq.pc_lt hpc)
    ((notFaulted_congr hstatus).trans hn)

/-- So do the three cycles before the word's Memory cycle. -/
theorem commits_runClock_of_lt_four (hn : notFaulted e = true) {j : Nat} (hj : j < 4) :
    commits Config.default (runClock Config.default j s) = true := by
  rcases Nat.lt_or_eq_of_le (Nat.le_of_lt_succ hj) with hj | rfl
  · exact (h.quietSince_runClock (by omega) (by omega)).commits (by omega) (by omega)
  · exact h.commits_runClock_three hpc he hn

/-- After its Memory cycle the word's data access is done, and finishing MEMWB is its register write. -/
theorem runClock_four (hn : notFaulted e = true) :
    (runClock Config.default 4 s).dmem = e.dmem ∧ (runClock Config.default 4 s).status = .running ∧
      (afterMemwb (runClock Config.default 4 s)).1.reg = e.reg ∧
      (afterMemwb (runClock Config.default 4 s)).1.status = e.status := by
  have hq := h.quietSince_runClock (j := 3) (by omega) (by omega)
  have hc := h.commits_runClock_three hpc he hn
  obtain ⟨hreg, hdmem, hstatus⟩ := h.afterExmem_runClock_three hpc he
  obtain ⟨hreg', hdmem', hstatus'⟩ := afterMemwb_nextState_fields hc
  rw [runClock_succ_of_commits hc]
  exact ⟨(afterMemwb_dmem _).symm.trans (hdmem'.trans hdmem), (nextState_status _).trans hq.running,
    hreg'.trans hreg, hstatus'.trans hstatus⟩

/-- A jump is made in the Memory cycle. -/
theorem runClock_four_pc (hr : e.status = .running) (hred : redirects (decode (s.imemWord s.pc)) s = true) :
    (runClock Config.default 4 s).pc = e.pc := by
  have hc := h.commits_runClock_three hpc he (notFaulted_of_running hr)
  obtain ⟨e', b, he', hb, hco⟩ := h.carriesOver_runClock_three (by omega)
  cases he.symm.trans he'
  obtain ⟨-, -, hstatus⟩ := hco.fields_eq
  rw [hb hred] at hco
  rw [runClock_succ_of_commits hc]
  rcases hco with ⟨hopen, -⟩ | ⟨-, hclosed, hset⟩
  · cases hopen
  · calc (nextState (runClock Config.default 3 s)).pc
        = (afterExmem (runClock Config.default 3 s)).1.pc :=
          nextState_pc_of_redirection hc hclosed (hstatus.trans hr)
      _ = (settle (afterExmem (runClock Config.default 3 s)).1).pc :=
          (settle_pc_running _ (hstatus.trans hr)).symm
      _ = e.pc := by rw [hset, settle_pc_running _ hr]

/-- The register write is made in the fifth cycle, if that commits. -/
theorem runClock_five_reg (hn : notFaulted e = true)
    (hc : commits Config.default (runClock Config.default 4 s) = true) :
    (runClock Config.default 5 s).reg = e.reg := by
  obtain ⟨-, -, hreg, -⟩ := h.runClock_four hpc he hn
  rw [runClock_succ_of_commits hc, nextState_reg_eq_afterMemwb hc, hreg]

/-- Before the fifth cycle the registers are as they were. -/
theorem runClock_four_reg (hn : notFaulted e = true) : (runClock Config.default 4 s).reg = s.reg := by
  have hq := h.quietSince_runClock (j := 3) (by omega) (by omega)
  rw [runClock_succ_of_commits (h.commits_runClock_three hpc he hn),
    nextState_reg_of_not_writer (by rw [hq.memwb_noop (by omega)]; rfl), hq.reg]

/-- A HALT ends the run at the fifth edge. -/
theorem runClock_five_of_halted (hh : e.status = .halted) :
    (runClock Config.default 5 s).status = .halted ∧ (runClock Config.default 5 s).reg = e.reg ∧
      (runClock Config.default 5 s).dmem = e.dmem := by
  obtain ⟨hdmem, hrun, hreg, hstatus⟩ := h.runClock_four hpc he (notFaulted_of_halted hh)
  have hm := memwb_halt_of_afterMemwb_halted hrun (hstatus.trans hh)
  rw [afterMemwb_of_halt hm] at hreg
  rw [runClock_succ_last, advanceClock_of_halt hrun hm]
  exact ⟨rfl, hreg, hdmem⟩

/-- A data fault ends the run in the Memory cycle. -/
theorem runClock_four_of_faulted {f : Fault} {j : Nat} (hf : e.status = .faulted f j) :
    (runClock Config.default 4 s).status = .faulted f (s.cycles + 4) ∧
      (runClock Config.default 4 s).reg = e.reg ∧ (runClock Config.default 4 s).dmem = e.dmem := by
  have hq := h.quietSince_runClock (j := 3) (by omega) (by omega)
  obtain ⟨hreg, hdmem, hstatus⟩ := h.afterExmem_runClock_three hpc he
  obtain ⟨hadv, hreg', hdmem'⟩ :=
    advanceClock_of_afterExmem_faulted hq.running (hq.memwb_noop (by omega)) (hstatus.trans hf)
  rw [runClock_succ_last, hadv, takeFault_status, hq.cycles]
  exact ⟨rfl, hreg'.symm.trans hreg, hdmem'.symm.trans hdmem⟩

end EmptyPipeline

/-- With a NOOP behind a word that neither redirects nor halts, the word's Writeback cycle commits. -/
theorem EmptyPipeline.commits_runClock_four {s e : State} (h : EmptyPipeline s) (hpc : s.pc.toNat + 4 < 65536)
    (he : exec (decode (s.imemWord s.pc)) (settle s) = .next e) (hr : e.status = .running)
    (hbeq : opcodeOf (s.imemWord s.pc) ≠ .beq) (hhalt : opcodeOf (s.imemWord s.pc) ≠ .halt)
    (hnext : opcodeOf (memRead s.imem (s.pc.toNat + 1)) = .noop) :
    commits Config.default (runClock Config.default 4 s) = true := by
  have hn := notFaulted_of_running hr
  have hc {j : Nat} := h.commits_runClock_of_lt_four (by omega) he hn (j := j)
  have hword : opInFlight (runClock Config.default 1 s) 3 = opcodeOf (s.imemWord s.pc) := by
    rw [opInFlight_three, (h.ifid_runClock_one (by omega)).1]
  have hbehind : opInFlight (runClock Config.default 2 s) 3 = .noop := by
    rw [opInFlight_three, h.ifid_runClock_two (by omega), hnext]
  have hx3 : (runClock Config.default 3 s).exmem.opcode ≠ .beq := by
    rcases opInFlight_runClock 1 2 (i := 1) (by omega) fun j hj => hc (by omega) with ho | ho
    · exact (ho.trans hword).trans_ne hbeq
    · exact ho.trans_ne (by decide)
  have hm4 : (runClock Config.default 4 s).memwb.opcode ≠ .halt := by
    rcases opInFlight_runClock 1 3 (i := 0) (by omega) fun j hj => hc (by omega) with ho | ho
    · exact (ho.trans hword).trans_ne hhalt
    · exact ho.trans_ne (by decide)
  have hx4 : (runClock Config.default 4 s).exmem.opcode = .noop :=
    (opInFlight_runClock 2 2 (i := 1) (by omega) fun j hj => hc (by omega)).elim (fun ho => ho.trans hbehind) id
  have hpc4 : (runClock Config.default 4 s).pc.toNat ≤ s.pc.toNat + 4 := by
    rw [runClock_succ_of_commits (hc (by omega))]
    exact (nextState_pc_le (branchTaken_of_not_beq hx3)).trans
      (Nat.succ_le_succ (h.quietSince_runClock (by omega) (by omega)).pc)
  obtain ⟨-, hrun, -⟩ := h.runClock_four (by omega) he hn
  exact commits_of_no_access hrun hm4 (by rw [hx4]; rfl) (by omega)

/-! The obligations -/

/-- The sequential view runs the word at the pc of an empty pipeline in the cycle that fetches it. -/
theorem EmptyPipeline.drain_nextState {s : State} (h : EmptyPipeline s) (hpc : s.pc.toNat < 65536) :
    ∃ e, exec (decode (s.imemWord s.pc)) (settle s) = .next e ∧ drain (nextState s) = settle e := by
  obtain ⟨e, he, hdrain⟩ := drain_nextState_of_open (h.quietSince.commits (by omega) hpc) h.latchFacts h.loadUse_eq
    (by rw [h.finishInFlight_eq])
  exact ⟨e, h.drain_eq ▸ he, hdrain⟩

/-- Settles O55: an empty pipeline has an open path and no stall, and only bubbles retire. -/
theorem stepFromAnEmptyPipelineRunsTheInstruction : Obligations.StepFromAnEmptyPipelineRunsTheInstruction := by
  intro s hr hin hifid hidex hexmem hmemwb hwbret
  have h : EmptyPipeline s := ⟨hr, hifid, hidex, hexmem, hmemwb, hwbret⟩
  have hpc : s.pc.toNat < 65536 := toNat_lt_of_inRange hin
  have hc := h.quietSince.commits (by omega) hpc
  have hq := h.quietSince.nextState (by omega)
  obtain ⟨e, he, hdrain⟩ := h.drain_nextState hpc
  obtain ⟨hfetch, -, -⟩ := nextState_of_flow h.branchTaken_eq h.loadUse_eq
  exact ⟨nextState s, e, step_of_commits hc, he, hdrain, congrArg IfId.instr hfetch, hq.cycles, hq.reg, hq.dmem⟩

/-- Settles O60, by the status `exec` leaves: the word's Memory cycle is the fourth, its Writeback the fifth. -/
theorem placedInstructionTakesEffectInFiveSteps : Obligations.PlacedInstructionTakesEffectInFiveSteps := by
  intro s w hwf hr hpc hifid hidex hexmem hmemwb hwbret
  have h : EmptyPipeline (placeAtPc s w) := ⟨hr, hifid, hidex, hexmem, hmemwb, hwbret⟩
  have hw : (placeAtPc s w).imemWord (placeAtPc s w).pc = w := imemWord_placeAtPc hwf w
  have hpc3 : (placeAtPc s w).pc.toNat + 3 < 65536 := by rw [placeAtPc_pc]; omega
  obtain ⟨e, he, hdrain⟩ := h.drain_nextState (by omega)
  have hc := h.quietSince.commits (by omega) (by omega)
  rw [withFetchWord_toNat]
  refine ⟨nextState (placeAtPc s w), e, step_of_commits hc, by rwa [hw] at he, hdrain, fun hrun => ?_,
    h.runClock_five_of_halted hpc3 he, fun f j => h.runClock_four_of_faulted hpc3 he⟩
  have hn : notFaulted e = true := notFaulted_of_running hrun
  obtain ⟨hdmem, -⟩ := h.runClock_four hpc3 he hn
  refine ⟨hdmem, fun hred => h.runClock_four_pc hpc3 he hrun ?_, h.runClock_five_reg hpc3 he hn⟩
  rw [hw]
  exact (redirects_congr _ rfl).trans hred

/-- Settles O59: an ADD and the NOOPs behind it neither stall, redirect nor fault, so the fifth cycle commits. -/
theorem addReachesItsRegisterInTheFifthCycle : Obligations.AddReachesItsRegisterInTheFifthCycle := by
  intro s a b d x hr hifid hidex hexmem hmemwb hwbret hpc hadd hnoops
  have h : EmptyPipeline s := ⟨hr, hifid, hidex, hexmem, hmemwb, hwbret⟩
  have hword : decode (s.imemWord s.pc) = .add a b d x := hadd
  have hop : opcodeOf (s.imemWord s.pc) = .add := by rw [← decode_op, hword]; rfl
  have he : exec (decode (s.imemWord s.pc)) (settle s) =
      .next (advance ((settle s).writeReg d (addResult (s.readReg a) (s.readReg b)))) := by
    rw [hword, exec_eq_next]
    rfl
  have hn := notFaulted_of_running hr
  obtain ⟨hres, hother, -⟩ := advance_writeReg_effect (settle s) d (addResult (s.readReg a) (s.readReg b))
  have hc := h.commits_runClock_four hpc he hr (by simp [hop]) (by simp [hop]) (hnoops 1 (by omega) (by omega))
  have hreg := State.readReg_congr (h.runClock_five_reg (by omega) he hn hc)
  exact ⟨h.runClock_four_reg (by omega) he hn, (hreg d).trans hres, fun r hrd => (hreg r).trans (hother r hrd)⟩

end Sys2Proof.Machine
end
